-- ==== Sys2Proof/Word.lean ====
section
/-! DEFINITION. The word types of the model.

One container serves both variants (log 2): a register of `XPRLEN_IMPL` bits (00_scope.md R7) is a
`Word` of 64 bits, and on an `RV32S-only` implementation its upper half is zero. -/

namespace Sys2Proof

/-- The container of a value of `XPRLEN_IMPL` bits, 32 or 64 (00_scope.md R7, R16). -/
abbrev Word := BitVec 64

/-- The unit of both address spaces (20_memory.md R80). -/
abbrev Byte := BitVec 8

end Sys2Proof
end

