-- ==== Sys2Proof/Config.lean ====
section
/-! DEFINITION. The implementation parameters of 00_scope.md R7 to R13 and of the rules that name a
parameter, the interface of the parameter `BASE_ISA` (41_base_isa_interface.md R190), and the free
values of `draw(n)` (00_scope.md R16).

A `Config` is plain data and is carried in the state, so that a statement about every state is a
statement about every implementation (log 1). -/

namespace Sys2Proof

/-- `VARIANT` (00_scope.md R2, R7). -/
inductive Variant where
  | rv32sOnly
  | rv64sOnly
  | rv32sAndRv64s
  deriving DecidableEq, Repr

/-- `PCR32_EXT` (40_privileged.md R172): how a 32-bit control register fills a 64-bit x register;
`unfixed` leaves the upper half a free value. -/
inductive Pcr32Ext where
  | zero
  | sign
  | unfixed
  deriving DecidableEq, Repr

/-- `UNUSED_PCR` (10_state.md R30). -/
inductive UnusedPcrPolicy where
  | refuse
  | illegalInstruction
  | readZeroIgnoreWrite
  deriving DecidableEq, Repr

/-- `RO_WRITE` (40_privileged.md R176). -/
inductive RoWritePolicy where
  | refuse
  | ignored
  deriving DecidableEq, Repr

/-- What a step does whose next `pc` leaves the register: the spec's treatment is `refuse`; `wrap` is
arithmetic modulo `2^XPRLEN_IMPL` and no more (10_state.md R26, log 15). -/
inductive PcWrapPolicy where
  | refuse
  | wrap
  deriving DecidableEq, Repr

/-- `STATUS_LAYOUT` (10_state.md R33): the bit of `status` that holds each one-bit field; `IM` is
always bits 15 to 8. -/
structure StatusLayout where
  et : Nat
  ef : Nat
  ps : Nat
  s : Nat
  u64 : Nat
  s64 : Nat
  vm : Nat
  deriving DecidableEq, Repr

/-- The default layout of 10_state.md R33 (log 8). -/
def StatusLayout.default : StatusLayout :=
  { et := 0, ef := 1, ps := 4, s := 5, u64 := 6, s64 := 7, vm := 16 }

/-- The positions a layout uses, one a field. -/
def StatusLayout.positions (l : StatusLayout) : List Nat :=
  [l.et, l.ef, l.ps, l.s, l.u64, l.s64, l.vm]

/-- Seven distinct positions of a 32-bit word, none in 15 to 8 (10_state.md R33). -/
abbrev StatusLayout.Valid (l : StatusLayout) : Prop :=
  l.positions.Nodup ∧ ∀ p ∈ l.positions, p < 32 ∧ ¬ (8 ≤ p ∧ p ≤ 15)

/-- `PTE_LAYOUT` (20_memory.md R93): the bit of each one-bit field, and the lowest bit of `ppn` in
each variant. -/
structure PteLayout where
  e : Nat
  t : Nat
  ux : Nat
  uw : Nat
  ur : Nat
  sx : Nat
  sw : Nat
  sr : Nat
  ppnLow32 : Nat
  ppnLow64 : Nat
  deriving DecidableEq, Repr

/-- The default layout of 20_memory.md R93 (log 9). -/
def PteLayout.default : PteLayout :=
  { e := 0, t := 1, ux := 4, uw := 5, ur := 6, sx := 7, sw := 8, sr := 9,
    ppnLow32 := 12, ppnLow64 := 13 }

/-- A range of physical addresses that hold memory; `PMEM` is partial (20_memory.md R82). -/
structure Region where
  base : Nat
  size : Nat
  deriving DecidableEq, Repr

/-- The parameters of one implementation. -/
structure Config where
  /-- `VARIANT` (00_scope.md R7). -/
  variant : Variant
  /-- `HAS_RV32_USER` (00_scope.md R8). -/
  hasRv32User : Bool
  /-- `HAS_FPU` (00_scope.md R9). -/
  hasFpu : Bool
  /-- `EXT_IRQ` (00_scope.md R10): bit `i` is set when external line `i` is connected. -/
  extIrq : BitVec 7
  /-- The extent of `PMEM` (00_scope.md R11, 20_memory.md R82). -/
  pmem : List Region
  /-- `STATUS_LAYOUT` (10_state.md R33). -/
  statusLayout : StatusLayout
  /-- `PTE_LAYOUT` (20_memory.md R93). -/
  pteLayout : PteLayout
  /-- `PCR32_EXT` (40_privileged.md R172). -/
  pcr32Ext : Pcr32Ext
  /-- `UNUSED_PCR` (10_state.md R30). -/
  unusedPcr : UnusedPcrPolicy
  /-- `RO_WRITE` (40_privileged.md R176). -/
  roWrite : RoWritePolicy
  /-- `CANON_CHECK_VM0` (20_memory.md R95). -/
  canonCheckVm0 : Bool
  /-- `IFETCH_COHERENT` (20_memory.md R113). -/
  ifetchCoherent : Bool
  /-- `TLB_COHERENT` (20_memory.md R114). -/
  tlbCoherent : Bool
  /-- 10_state.md R26 (log 15). -/
  pcWrap : PcWrapPolicy
  deriving DecidableEq, Repr

/-- The implementation `State.reset` is a state of: the configuration 95_test_vectors.md Part 3 gives
for its programs P1 to P5, and an effect wherever the choices the spec gives a policy hold one (log
3). -/
def Config.default : Config :=
  { variant := .rv32sOnly
    hasRv32User := false
    hasFpu := false
    extIrq := 0
    pmem := [{ base := 0, size := 2 ^ 64 }]
    statusLayout := .default
    pteLayout := .default
    pcr32Ext := .unfixed
    unusedPcr := .readZeroIgnoreWrite
    roWrite := .ignored
    canonCheckVm0 := true
    ifetchCoherent := true
    tlbCoherent := true
    pcWrap := .refuse }

/-- The implementation provides RV64S (00_scope.md R7). -/
def Config.providesRv64 (c : Config) : Bool :=
  match c.variant with
  | .rv32sOnly => false
  | .rv64sOnly => true
  | .rv32sAndRv64s => true

/-- `XPRLEN_IMPL` (00_scope.md R7). -/
def Config.xlen (c : Config) : Nat :=
  if c.providesRv64 then 64 else 32

/-- The value of the `n`-th `draw` (00_scope.md R16). Nothing is known of it (log 19). -/
opaque Config.freeWord : Nat → BitVec 64

/-- The three kinds of access (20_memory.md R81). -/
inductive AccessKind where
  | fetch
  | load
  | store
  deriving DecidableEq, Repr

/-- The two kinds of data access a base instruction makes (41_base_isa_interface.md R195, R196). -/
inductive DataKind where
  | load
  | store
  deriving DecidableEq, Repr

/-- The widths of a data access (20_memory.md R84). -/
inductive Width where
  | one
  | two
  | four
  | eight
  deriving DecidableEq, Repr

/-- The classes of base instructions (41_base_isa_interface.md R190). A floating-point load or store
is in class `FloatingPoint` and also makes a memory request. -/
inductive BaseClass where
  | floatingPoint (access : Option (DataKind × Width))
  | systemCall
  | breakpoint
  | load (n : Width)
  | store (n : Width)
  | other
  deriving DecidableEq, Repr

/-- What a base instruction reads beside memory (41_base_isa_interface.md R190): the x registers, the
`pc` and the floating-point state; never a control register. -/
structure UserView where
  x : Vector Word 32
  pc : Word
  /-- The floating-point state, coded as a number by `BASE_ISA` (log 26). -/
  fp : Nat
  deriving DecidableEq, Repr, Inhabited

/-- What a base instruction leaves in the same places. Its next `pc`, the successor or the target, is an
exact number, so that a step that would wrap the `pc` is seen (10_state.md R24, R26, log 15). -/
structure BaseEffect where
  x : Vector Word 32
  pc : Int
  fp : Nat
  deriving DecidableEq, Repr, Inhabited

/-- The parameter `BASE_ISA` (00_scope.md R12, 41_base_isa_interface.md R190). The first argument of
each function says whether the RV64 base ISA is the one in force (R191). -/
structure BaseIsa where
  /-- The class of a word, or `none` for a word that is no base instruction. -/
  classify : Bool → BitVec 32 → Option BaseClass
  /-- The effective address of a word that makes a memory request. -/
  address : Bool → BitVec 32 → UserView → Word
  /-- The value a word stores. -/
  storeData : Bool → BitVec 32 → UserView → Word
  /-- `ExecBase`: the x registers, the `pc` and the floating-point state after the word, given the
  value it loaded (0 for a word that loads nothing). -/
  result : Bool → BitVec 32 → UserView → Word → BaseEffect
  deriving Inhabited

/-- The base ISA of this machine. No source defines it, and nothing is known of it (log 26). -/
opaque Config.baseIsa : BaseIsa

end Sys2Proof
end

