-- ==== Sys2Proof/Syntax.lean ====
section
/-! DEFINITION. The instructions of spec/opcode_table.json and their operands. -/

namespace Sys2Proof

/-- The number of an x register (10_state.md R21). -/
abbrev RegIdx := Fin 32

/-- A control register operand: one of the twelve registers of Table 1, or an unused number
(10_state.md R28, R30). -/
inductive Pcr where
  | status
  | epc
  | badvaddr
  | evec
  | count
  | compare
  | cause
  | ptbr
  | k0
  | k1
  | tohost
  | fromhost
  | unused (n : Fin 32)
  deriving DecidableEq, Repr

/-- The instructions VOL2 defines (30_encoding.md R140). -/
inductive Instr where
  /-- `mfpcr xD, crN` (40_privileged.md R171). -/
  | mfpcr (rd : RegIdx) (cr : Pcr)
  /-- `mtpcr xS, crN` (40_privileged.md R174). -/
  | mtpcr (rs : RegIdx) (cr : Pcr)
  /-- `eret` (40_privileged.md R177). -/
  | eret
  deriving DecidableEq, Repr

end Sys2Proof
end

