-- ==== Sys2Proof/WellFormed.lean ====
section
/-! DEFINITION. Which instruction terms are instructions: the operand `unused n` stands only for the
numbers Table 1 calls unused (10_state.md R30). -/

namespace Sys2Proof

/-- Numbers 8 to 11, 14, 15 and 18 to 31 (10_state.md R30). -/
def unusedPcrNumber (n : Nat) : Bool :=
  (8 ≤ n && n ≤ 11) || n == 14 || n == 15 || (18 ≤ n && n ≤ 31)

/-- A control register operand names a register once: an unused number is one of R30's. -/
def Pcr.wellFormed : Pcr → Bool
  | .unused n => unusedPcrNumber n
  | .status => true
  | .epc => true
  | .badvaddr => true
  | .evec => true
  | .count => true
  | .compare => true
  | .cause => true
  | .ptbr => true
  | .k0 => true
  | .k1 => true
  | .tohost => true
  | .fromhost => true

/-- The x register number is in range by its type; the control register operand is checked. -/
def Instr.wellFormed : Instr → Bool
  | .mfpcr _ cr => cr.wellFormed
  | .mtpcr _ cr => cr.wellFormed
  | .eret => true

end Sys2Proof
end

