-- ==== Sys2Proof/Decode.lean ====
section
/-! DEFINITION. The default `DECODE` of 30_encoding.md R143 (log 7), its encoder, and `DECODE` as the
parameter R141 makes it. -/

namespace Sys2Proof

/-- The control register a number names (10_state.md R28, Table 1). -/
def Pcr.ofNumber (n : Fin 32) : Pcr :=
  match n.val with
  | 0 => .status
  | 1 => .epc
  | 2 => .badvaddr
  | 3 => .evec
  | 4 => .count
  | 5 => .compare
  | 6 => .cause
  | 7 => .ptbr
  | 12 => .k0
  | 13 => .k1
  | 16 => .tohost
  | 17 => .fromhost
  | _ => .unused n

/-- The number of a control register (10_state.md R28, Table 1). -/
def Pcr.number : Pcr → Fin 32
  | .status => 0
  | .epc => 1
  | .badvaddr => 2
  | .evec => 3
  | .count => 4
  | .compare => 5
  | .cause => 6
  | .ptbr => 7
  | .k0 => 12
  | .k1 => 13
  | .tohost => 16
  | .fromhost => 17
  | .unused n => n

/-- A row of the opcode table: a word is the row's instruction when its masked bits are the match. -/
structure OpcodeRow where
  mask : BitVec 32
  bits : BitVec 32
  deriving DecidableEq, Repr

/-- `w AND mask = match` (30_encoding.md R143). -/
def OpcodeRow.covers (r : OpcodeRow) (w : BitVec 32) : Bool :=
  w &&& r.mask == r.bits

def rowMfpcr : OpcodeRow := { mask := 0x003FFFFF, bits := 0x0000017B }
def rowMtpcr : OpcodeRow := { mask := 0xF801FFFF, bits := 0x000001FB }
def rowEret : OpcodeRow := { mask := 0xFFFFFFFF, bits := 0x0000027B }

/-- The three rows of spec/opcode_table.json. -/
def opcodeTable : List OpcodeRow := [rowMfpcr, rowMtpcr, rowEret]

/-- The five bits of `w` from bit `low` up, as an operand number (30_encoding.md R142). -/
def field5 (w : BitVec 32) (low : Nat) : Fin 32 :=
  (w.extractLsb' low 5).toFin

/-- The instruction a word is under the default rows; a word no row matches is none of the three. -/
def decodeWord (w : BitVec 32) : Option Instr :=
  if rowMfpcr.covers w then
    some (.mfpcr (field5 w 27) (.ofNumber (field5 w 22)))
  else if rowMtpcr.covers w then
    some (.mtpcr (field5 w 17) (.ofNumber (field5 w 22)))
  else if rowEret.covers w then
    some .eret
  else
    none

/-- An operand number placed at bit `low`. -/
def place5 (n : Fin 32) (low : Nat) : BitVec 32 :=
  BitVec.ofNat 32 n.val <<< low

/-- The word of an instruction (30_encoding.md R143). -/
def encodeWord : Instr → BitVec 32
  | .mfpcr rd cr => rowMfpcr.bits ||| place5 rd 27 ||| place5 cr.number 22
  | .mtpcr rs cr => rowMtpcr.bits ||| place5 cr.number 22 ||| place5 rs 17
  | .eret => rowEret.bits

/-- The four bytes of a word at ascending addresses: little-endian (30_encoding.md R141). -/
def wordBytes (w : BitVec 32) : List Byte :=
  [w.extractLsb' 0 8, w.extractLsb' 8 8, w.extractLsb' 16 8, w.extractLsb' 24 8]

/-- Why a list of bytes does not begin with one of the three instructions. -/
inductive DecodeReject where
  /-- Fewer than the four bytes of an instruction (30_encoding.md R141). -/
  | truncated
  /-- The word matches no row of the table (30_encoding.md R143). -/
  | noRow (w : BitVec 32)
  deriving DecidableEq, Repr

/-- The instruction at the head of a list of bytes, and the bytes after it. -/
def decodeBytes : List Byte → Except DecodeReject (Instr × List Byte)
  | b0 :: b1 :: b2 :: b3 :: rest =>
    let w : BitVec 32 := b3 ++ b2 ++ b1 ++ b0
    match decodeWord w with
    | some i => .ok (i, rest)
    | none => .error (.noRow w)
  | _ => .error .truncated

/-- The bytes of an instruction. -/
def encode (i : Instr) : List Byte :=
  wordBytes (encodeWord i)

/-- The instruction the decoder reads from an instruction whose table bits are `w`. -/
def decodeTableWord (nbits w : Nat) : Option Instr :=
  match decodeBytes (wordBytes (BitVec.ofNat 32 (w % 2 ^ nbits))) with
  | .ok (i, _) => some i
  | .error _ => none

/-- The assembler text of an instruction: the x register first, then `cr` and the number of Table 1
(30_encoding.md R150 to R152). -/
def assembly : Instr → String
  | .mfpcr rd cr => "mfpcr x" ++ toString rd.val ++ ", cr" ++ toString cr.number.val
  | .mtpcr rs cr => "mtpcr x" ++ toString rs.val ++ ", cr" ++ toString cr.number.val
  | .eret => "eret"

/-- What a word means to the machine (30_encoding.md R141). -/
inductive Decoded where
  | privileged (i : Instr)
  | base (c : BaseClass)
  | illegal
  deriving DecidableEq, Repr

/-- The parameter `DECODE` with the parameter `BASE_ISA` (00_scope.md R12): which words are the three
privileged instructions, and everything about the others. -/
structure Isa where
  privileged : BitVec 32 → Option Instr
  base : BaseIsa

/-- `DECODE` is a total function (30_encoding.md R141): a word is one of the three instructions, else
what the base ISA in force makes of it, else illegal (R146). -/
def Isa.decode (isa : Isa) (rv64 : Bool) (w : BitVec 32) : Decoded :=
  match isa.privileged w with
  | some i => .privileged i
  | none =>
    match isa.base.classify rv64 w with
    | some c => .base c
    | none => .illegal

/-- The default rows of R143 over the base ISA no source defines. -/
def Isa.default : Isa :=
  { privileged := decodeWord, base := Config.baseIsa }

end Sys2Proof
end

