-- ==== Sys2Proof/Machine/State.lean ====
section
/-! DEFINITION. The state of the machine: what 10_state.md, 20_memory.md and 60_exceptions.md give it,
the configuration it is an implementation of, and the agenda of its agents. INVENTORY.md lists every
field with its rule and its reset value. -/

namespace Sys2Proof.Machine

/-- Why the machine stops. -/
inductive Fault where
  /-- Raised by a processor move in error mode (60_exceptions.md R243): the processor executes nothing
  further. Safe: nothing can be proved of a run that goes on from it (log 20). -/
  | errorMode
  deriving DecidableEq, Repr

/-- Why the model gives a step no meaning. Each is safe: nothing can be proved of the step's result. -/
inductive Refusal where
  /-- Raised by `exec` for an instruction that has no meaning yet. -/
  | notModelled (mnemonic : String)
  /-- Raised by `mfpcr` and `mtpcr` of an unused number where `UNUSED_PCR` is `refuse`
  (10_state.md R30). -/
  | unusedPcr
  /-- Raised by `mtpcr` of a read-only register where `RO_WRITE` is `refuse` (40_privileged.md R176). -/
  | readOnlyPcr
  /-- Raised by an instruction whose next `pc` leaves the register, where `pcWrap` is `refuse`
  (10_state.md R26). -/
  | pcWrap
  /-- Raised by a translation that starts with `ptbr` not page-aligned (20_memory.md R97). -/
  | misalignedPtbr
  /-- Raised by an access to a physical address outside `PMEM` (20_memory.md R82). -/
  | absentMemory
  /-- Raised by a fetch of a byte stored to since reset, where `IFETCH_COHERENT` is false
  (20_memory.md R113). -/
  | incoherentFetch
  /-- Raised by a walk after a `ptbr` write or over a byte stored to while `VM = 1`, where
  `TLB_COHERENT` is false (20_memory.md R114). -/
  | incoherentWalk
  /-- Raised by a processor move with the RV32 ISA in force on a 64-bit implementation
  (00_scope.md R6, 92_eei_decisions.md D24). -/
  | mixedWidth
  deriving DecidableEq, Repr

/-- The exceptions (60_exceptions.md R220, R230). -/
inductive Cause where
  | instrMisaligned
  | instrAccessFault
  | illegalInstr
  | privilegedInstr
  | fpDisabled
  | systemCall
  | breakpoint
  | loadMisaligned
  | storeMisaligned
  | loadAccessFault
  | storeAccessFault
  | interrupt (i : Fin 8)
  deriving DecidableEq, Repr

/-- The fields of `status` (10_state.md R32 to R41); its 32-bit word is `statusWord`. -/
structure Status where
  im : BitVec 8
  vm : Bool
  s : Bool
  ps : Bool
  u64 : Bool
  s64 : Bool
  ef : Bool
  et : Bool
  deriving DecidableEq, Repr

/-- Physical memory: address and byte, addresses strictly rising, no byte equal to what an unlisted
address reads as (`Memory.Wf`). -/
abbrev Memory := List Host.Cell

/-- Everything the spec leaves undefined at reset (10_state.md R62), and the memory contents. -/
structure UndefinedAtReset where
  x : Vector Word 32
  im : BitVec 8
  ps : Bool
  u64 : Bool
  ef : Bool
  epc : Word
  badvaddr : Word
  evec : Word
  count : BitVec 32
  compare : BitVec 32
  cause : BitVec 32
  ptbr : Word
  k0 : Word
  k1 : Word
  fromhost : Word
  timerIp : Bool
  lines : BitVec 7
  fp : Nat
  mem : Memory
  deriving DecidableEq, Repr

/-- One move of one agent. -/
inductive Event where
  /-- The clock ticks (60_exceptions.md R260). -/
  | tick
  /-- The host writes `fromhost` (60_exceptions.md R266). -/
  | hostWrite (v : Word)
  /-- External line `i` goes to a level (60_exceptions.md R232). -/
  | line (i : Fin 7) (level : Bool)
  /-- The processor moves, and takes an interrupt that qualifies (60_exceptions.md R233). -/
  | run
  /-- The processor executes the instruction at `pc`, though an interrupt may qualify
  (60_exceptions.md R233). -/
  | defer
  /-- External reset (70_reset_and_hazards.md R290), with the values reset leaves undefined. -/
  | reset (u : UndefinedAtReset)
  deriving DecidableEq, Repr

/-- The machine's state. -/
structure State where
  /-- The implementation's parameters; no step changes them (log 1). -/
  conf : Config
  /-- The x registers; `x[0]` holds zero (10_state.md R20, R21). -/
  x : Vector Word 32
  /-- The address of the instruction about to be executed (10_state.md R23). -/
  pc : Word
  /-- PCR 0 (10_state.md R32). -/
  status : Status
  /-- PCR 1 (10_state.md R46). -/
  epc : Word
  /-- PCR 2 (10_state.md R47). -/
  badvaddr : Word
  /-- PCR 3 (10_state.md R48). -/
  evec : Word
  /-- PCR 4 (10_state.md R49). -/
  count : BitVec 32
  /-- PCR 5 (10_state.md R50). -/
  compare : BitVec 32
  /-- PCR 6 (10_state.md R51). -/
  cause : BitVec 32
  /-- PCR 7 (10_state.md R53). -/
  ptbr : Word
  /-- PCR 12 (10_state.md R54). -/
  k0 : Word
  /-- PCR 13 (10_state.md R54). -/
  k1 : Word
  /-- PCR 16 (10_state.md R55). -/
  tohost : Word
  /-- PCR 17 (10_state.md R56). -/
  fromhost : Word
  /-- The timer request latch `ip[7]` (10_state.md R58). -/
  timerIp : Bool
  /-- The external lines `ip[0..6]` (10_state.md R58). -/
  lines : BitVec 7
  /-- Error mode (10_state.md R59). -/
  errmode : Bool
  /-- The floating-point state, if any, coded as a number (10_state.md R57, log 26). -/
  fp : Nat
  /-- Physical memory (20_memory.md R82). -/
  mem : Memory
  /-- The sequence of values written to `tohost`, oldest first (60_exceptions.md R265). -/
  output : List Word
  /-- The next moves of the agents (log 21). -/
  agenda : List Event
  /-- How many free values have been taken (log 19). -/
  draws : Nat
  /-- Physical addresses of bytes stored to since reset (20_memory.md R113). -/
  storedBytes : List Nat
  /-- Physical addresses of bytes stored to while `VM = 1` (20_memory.md R114). -/
  storedUnderVm : List Nat
  /-- `ptbr` has been written while `VM = 1` (20_memory.md R114). -/
  ptbrUnderVm : Bool
  deriving DecidableEq, Repr

/-- The machine right after reset (10_state.md R62) on the implementation `Config.default`. The values
the spec calls undefined are zero here, by log 4; `resetWith` of Machine/Ops.lean is reset for every
implementation and every choice of those values. -/
def State.reset : State :=
  { conf := .default
    x := Vector.replicate 32 0
    pc := 0x2000
    status := { im := 0, vm := false, s := true, ps := false, u64 := false, s64 := false,
                ef := false, et := false }
    epc := 0
    badvaddr := 0
    evec := 0
    count := 0
    compare := 0
    cause := 0
    ptbr := 0
    k0 := 0
    k1 := 0
    tohost := 0
    fromhost := 0
    timerIp := false
    lines := 0
    errmode := false
    fp := 0
    mem := []
    output := []
    agenda := []
    draws := 0
    storedBytes := []
    storedUnderVm := []
    ptbrUnderVm := false }

end Sys2Proof.Machine
end

