-- ==== Sys2Proof/Machine/Bits.lean ====
section
/-! DEFINITION. Fitting values to `XPRLEN_IMPL` bits, and the small bit-field helpers. -/

namespace Sys2Proof

/-- The low `XPRLEN_IMPL` bits of a value: arithmetic on an n-bit value is modulo 2^n
(00_scope.md R15). -/
def Config.fit (c : Config) (v : Word) : Word :=
  if c.providesRv64 then v else v &&& 0xFFFFFFFF#64

/-- A word of 32 bits with one bit set when `b` (10_state.md R33). -/
def bitAt (position : Nat) (b : Bool) : BitVec 32 :=
  if b then 1#32 <<< position else 0#32

/-- The low 32 bits of a value (40_privileged.md R175). -/
def low32 (v : Word) : BitVec 32 :=
  v.setWidth 32

/-- The number of bytes of an access (20_memory.md R84). -/
def Width.bytes : Width → Nat
  | .one => 1
  | .two => 2
  | .four => 4
  | .eight => 8

/-- The access a data request makes (20_memory.md R81). -/
def DataKind.access : DataKind → AccessKind
  | .load => .load
  | .store => .store

end Sys2Proof
end

