-- ==== Sys2Proof/Machine/Flags.lean ====
section
/-! DEFINITION. The fields of `status` and its word (10_state.md R33 to R43), and which interrupts
qualify (60_exceptions.md R231). The architecture has no arithmetic flags (10_state.md R27). -/

namespace Sys2Proof

/-- The value `S64` takes when `b` is written to it (10_state.md R39, R42). -/
def Config.s64Of (c : Config) (b : Bool) : Bool :=
  match c.variant with
  | .rv32sOnly => false
  | .rv64sOnly => true
  | .rv32sAndRv64s => b

/-- The value `U64` takes when `b` is written to it beside the new value `s64` of `S64`
(10_state.md R38, R42). -/
def Config.u64Of (c : Config) (s64 b : Bool) : Bool :=
  s64 && (! c.hasRv32User || b)

/-- The value `EF` takes when `b` is written to it (10_state.md R40, R42). -/
def Config.efOf (c : Config) (b : Bool) : Bool :=
  c.hasFpu && b

namespace Machine

/-- The 32-bit word of `status` under a layout; the bits no field names read 0 (10_state.md R33). -/
def statusWord (l : StatusLayout) (st : Status) : BitVec 32 :=
  (st.im.setWidth 32 <<< 8) ||| bitAt l.vm st.vm ||| bitAt l.s st.s ||| bitAt l.ps st.ps |||
    bitAt l.u64 st.u64 ||| bitAt l.s64 st.s64 ||| bitAt l.ef st.ef ||| bitAt l.et st.et

/-- The fields of `status` after a write of `v` (10_state.md R42); `S64` is the value just written
where `U64` depends on it. -/
def statusOfWord (c : Config) (v : BitVec 32) : Status :=
  let l := c.statusLayout
  let s64 := c.s64Of (v.getLsbD l.s64)
  { im := v.extractLsb' 8 8
    vm := v.getLsbD l.vm
    s := v.getLsbD l.s
    ps := v.getLsbD l.ps
    u64 := c.u64Of s64 (v.getLsbD l.u64)
    s64 := s64
    ef := c.efOf (v.getLsbD l.ef)
    et := v.getLsbD l.et }

/-! The symbolic constants of Figure 14: each is the mask of the field of its name (30_encoding.md
R153). -/

/-- `SR_S`. -/
def srS (l : StatusLayout) : BitVec 32 := bitAt l.s true

/-- `SR_ET`. -/
def srEt (l : StatusLayout) : BitVec 32 := bitAt l.et true

/-- `SR_U64`. -/
def srU64 (l : StatusLayout) : BitVec 32 := bitAt l.u64 true

/-- `SR_S64`. -/
def srS64 (l : StatusLayout) : BitVec 32 := bitAt l.s64 true

/-- `SR_IM`: all eight mask bits. -/
def srIm : BitVec 32 := 0x0000FF00

/-- The value Figure 14 writes to `status`: `SR_S | SR_ET | SR_IM | SR_S64 | SR_U64`
(70_reset_and_hazards.md R292). -/
def figure14Status (l : StatusLayout) : BitVec 32 :=
  srS l ||| srEt l ||| srIm ||| srS64 l ||| srU64 l

/-- The interrupt requests `ip[7..0]` (10_state.md R58): the timer's latch above the external lines. -/
def State.ip (s : State) : BitVec 8 :=
  BitVec.ofBool s.timerIp ++ s.lines

/-- `qualifies(i)`: requested, enabled by its mask bit, exceptions enabled (60_exceptions.md R231). -/
def State.qualifies (s : State) (i : Fin 8) : Bool :=
  s.status.et && s.status.im.getLsbD i && s.ip.getLsbD i

/-- The qualifying interrupt of highest priority, the one of least index (60_exceptions.md R230, R231). -/
def State.leastQualifying (s : State) : Option (Fin 8) :=
  (List.finRange 8).find? s.qualifies

/-- The RV64 base ISA is the one in force (41_base_isa_interface.md R191). -/
def State.rv64InForce (s : State) : Bool :=
  if s.status.s then s.status.s64 else s.status.u64

/-- The RV32 ISA in force on a 64-bit implementation, whose rules no source gives (00_scope.md R6,
92_eei_decisions.md D24, log 28). -/
def State.mixedWidth (s : State) : Bool :=
  s.conf.providesRv64 && ! s.rv64InForce

end Machine

end Sys2Proof
end

