-- ==== Sys2Proof/Machine/Memory.lean ====
section
/-! DEFINITION. Physical memory: one canonical list of cells, one byte at a time, and the little-endian
accesses over it (20_memory.md R84, R85, log 10). -/

namespace Sys2Proof.Machine

/-- What a byte of memory that nothing has written reads as (log 6). -/
def Memory.unlisted : Byte := 0

/-- The canonical form: addresses strictly rising, no byte equal to what an unlisted address reads
as. -/
abbrev Memory.Wf (m : Memory) : Prop :=
  m.Pairwise (fun c d => c.1 < d.1) ∧ ∀ c ∈ m, c.2 ≠ Memory.unlisted

/-- The byte at a physical address. -/
def Memory.readByte : Memory → Nat → Byte
  | [], _ => Memory.unlisted
  | (b, v) :: rest, a => if b = a then v else Memory.readByte rest a

/-- A cell list with `v` at `a` put before the cells of higher address. -/
def Memory.consByte (a : Nat) (v : Byte) (m : Memory) : Memory :=
  if v = Memory.unlisted then m else (a, v) :: m

/-- Memory with the byte at `a` set to `v`; the canonical form is kept. -/
def Memory.writeByte : Memory → Nat → Byte → Memory
  | [], a, v => Memory.consByte a v []
  | (b, w) :: rest, a, v =>
    if a < b then Memory.consByte a v ((b, w) :: rest)
    else if a = b then Memory.consByte a v rest
    else (b, w) :: Memory.writeByte rest a v

/-- The `n` bytes from `a` up as one value, the byte at `a` least significant (20_memory.md R84). -/
def Memory.readLE (m : Memory) (a : Nat) : Nat → Word
  | 0 => 0
  | n + 1 => (Memory.readLE m (a + 1) n <<< 8) ||| (m.readByte a).setWidth 64

/-- Memory with the low `n` bytes of `v` stored from `a` up (20_memory.md R85). -/
def Memory.writeLE (m : Memory) (a : Nat) : Nat → Word → Memory
  | 0, _ => m
  | n + 1, v => Memory.writeLE (m.writeByte a (v.setWidth 8)) (a + 1) n (v >>> 8)

/-- The canonical memory of a list of cells; a later cell wins. -/
def Memory.ofCells (cells : List Host.Cell) : Memory :=
  cells.foldl (fun m c => m.writeByte c.1 c.2) []

/-- An address put into a strictly rising list of addresses. -/
def insertAddr (a : Nat) : List Nat → List Nat
  | [] => [a]
  | b :: rest => if a < b then a :: b :: rest else if a = b then b :: rest else b :: insertAddr a rest

/-- The `n` addresses from `a` up put into a strictly rising list of addresses. -/
def insertAddrs (a : Nat) : Nat → List Nat → List Nat
  | 0, l => l
  | n + 1, l => insertAddrs (a + 1) n (insertAddr a l)

/-- None of the `n` addresses from `a` up is in the list. -/
def disjointFrom (l : List Nat) (a n : Nat) : Bool :=
  (List.range n).all fun k => ! l.contains (a + k)

/-- The premise `NO_SMC` at a fetch of the four bytes from `pa` up (20_memory.md R113). -/
def noSmc (s : State) (pa : Nat) : Bool :=
  disjointFrom s.storedBytes pa 4

/-- The premise `PT_STABLE` at a read of the PTE of `n` bytes from `a` up (20_memory.md R114). -/
def ptStable (s : State) (a n : Nat) : Bool :=
  ! s.ptbrUnderVm && disjointFrom s.storedUnderVm a n

/-- `PMEM` holds the `n` bytes from `a` up (20_memory.md R82). -/
def physPresent (c : Config) (a n : Nat) : Bool :=
  (List.range n).all fun k => c.pmem.any fun r => r.base ≤ a + k && a + k < r.base + r.size

/-- `PhysRead` (20_memory.md R84), refused outside `PMEM` (R82). -/
def physRead (s : State) (pa n : Nat) : Option Word :=
  if physPresent s.conf pa n then some (s.mem.readLE pa n) else none

/-- `PhysWrite` (20_memory.md R85), refused outside `PMEM` (R82). The addresses are recorded for
`NO_SMC` and `PT_STABLE` (R113, R114). -/
def physWrite (s : State) (pa n : Nat) (v : Word) : Option State :=
  if physPresent s.conf pa n then
    some { s with
      mem := s.mem.writeLE pa n v
      storedBytes := insertAddrs pa n s.storedBytes
      storedUnderVm := if s.status.vm then insertAddrs pa n s.storedUnderVm else s.storedUnderVm }
  else none

end Sys2Proof.Machine
end

