-- ==== Sys2Proof/Machine/Ops.lean ====
section
/-! DEFINITION. The shared operations of a step: free values, taking an exception and returning from
one, error mode, the clock's tick, reset, and moving past an instruction. -/

namespace Sys2Proof.Machine

/-- The outcomes of this machine. -/
abbrev Result := Host.Outcome State Fault Refusal

/-- `draw` (00_scope.md R16): a value the model does not choose, a fresh one each time (log 19). -/
def State.draw (s : State) : Word × State :=
  (Config.freeWord s.draws, { s with draws := s.draws + 1 })

/-- The `ExcCode` of an exception (60_exceptions.md R220, Table 2; 90_conflicts.md C4). -/
def Cause.code : Cause → Nat
  | .instrMisaligned => 0
  | .instrAccessFault => 1
  | .illegalInstr => 2
  | .privilegedInstr => 3
  | .fpDisabled => 4
  | .systemCall => 6
  | .breakpoint => 7
  | .loadMisaligned => 8
  | .storeMisaligned => 9
  | .loadAccessFault => 10
  | .storeAccessFault => 11
  | .interrupt i => 16 + i.val

/-- The exceptions that write the faulting address to `badvaddr`: codes 8 to 11 (10_state.md R47). -/
def Cause.recordsAddress : Cause → Bool
  | .loadMisaligned => true
  | .storeMisaligned => true
  | .loadAccessFault => true
  | .storeAccessFault => true
  | .instrMisaligned => false
  | .instrAccessFault => false
  | .illegalInstr => false
  | .privilegedInstr => false
  | .fpDisabled => false
  | .systemCall => false
  | .breakpoint => false
  | .interrupt _ => false

/-- Error mode (60_exceptions.md R243): `status`, `epc`, `cause`, `badvaddr` and `pc` are undefined from
then on, so each is a free value; hard-wired fields of `status` keep their values (10_state.md R43). -/
def enterErrorMode (s : State) : State :=
  { s with
    errmode := true
    status := statusOfWord s.conf (low32 (Config.freeWord s.draws))
    epc := s.conf.fit (Config.freeWord (s.draws + 1))
    cause := low32 (Config.freeWord (s.draws + 2))
    badvaddr := s.conf.fit (Config.freeWord (s.draws + 3))
    pc := s.conf.fit (Config.freeWord (s.draws + 4))
    draws := s.draws + 5 }

/-- Exception entry with exceptions enabled (60_exceptions.md R240). -/
def enterHandler (c : Cause) (epcval va : Word) (s : State) : State :=
  { s with
    epc := epcval
    cause := BitVec.ofNat 32 c.code
    badvaddr := if c.recordsAddress then va else s.conf.fit (Config.freeWord s.draws)
    draws := if c.recordsAddress then s.draws else s.draws + 1
    status := { s.status with ps := s.status.s, s := true, et := false }
    pc := s.evec }

/-- `TakeException(code, epcval, va)` (60_exceptions.md R240): with `ET = 0` the processor enters error
mode instead. -/
def takeException (c : Cause) (epcval va : Word) (s : State) : State :=
  if s.status.et then enterHandler c epcval va s else enterErrorMode s

/-- `raise E(va)` (60_exceptions.md R237): the exception of the instruction at `pc`. -/
def raise (c : Cause) (va : Word) (s : State) : Result :=
  .next (takeException c s.pc va s)

/-- The return from an exception (60_exceptions.md R245, 40_privileged.md R177). -/
def returnFromException (s : State) : State :=
  { s with status := { s.status with s := s.status.ps, et := true }, pc := s.epc }

/-- `Tick` (60_exceptions.md R260, R261). -/
def tick (s : State) : State :=
  { s with
    count := s.count + 1
    timerIp := s.timerIp || s.count + 1 == s.compare }

/-- `pc <- v` (00_scope.md R16). -/
def State.withPc (s : State) (v : Word) : State :=
  { s with pc := v }

/-- The next `pc` an instruction computes leaves the register (10_state.md R26). -/
def pcLeaves (c : Config) (target : Int) : Bool :=
  target < 0 || ((2 ^ c.xlen : Nat) : Int) ≤ target

/-- An instruction with next `pc` `target` completes in `done`; one that would wrap the `pc` is refused
where the implementation says so (10_state.md R26, log 15). -/
def complete (target : Int) (done : State) : Result :=
  if done.conf.pcWrap = .refuse ∧ pcLeaves done.conf target then .refused .pcWrap else .next done

/-- `pc <- pc + 4` (40_privileged.md R171, R174), modulo 2^XPRLEN_IMPL. -/
def advance (s : State) : Result :=
  complete (s.pc.toNat + 4) (s.withPc (s.conf.fit (s.pc + 4)))

/-- What a privileged instruction does first (40_privileged.md R170): in user mode it does nothing but
raise "Privileged instruction". -/
def inSupervisorMode (s : State) (act : State → Result) : Result :=
  if s.status.s then act s else raise .privilegedInstr 0 s

/-- The state reset leaves on an implementation, given what the spec leaves undefined (10_state.md
R62, 70_reset_and_hazards.md R290). `evec[1:0] = 0`, hard-wired fields and unconnected lines hold
their values whatever is drawn. -/
def resetWith (c : Config) (u : UndefinedAtReset) : State :=
  let s64 := c.providesRv64
  { conf := c
    x := (u.x.map c.fit).set 0 0
    pc := 0x2000
    status := { im := u.im, vm := false, s := true, ps := u.ps, u64 := c.u64Of s64 u.u64, s64 := s64,
                ef := c.efOf u.ef, et := false }
    epc := c.fit u.epc
    badvaddr := c.fit u.badvaddr
    evec := c.fit (u.evec &&& ~~~3#64)
    count := u.count
    compare := u.compare
    cause := u.cause
    ptbr := c.fit u.ptbr
    k0 := c.fit u.k0
    k1 := c.fit u.k1
    tohost := 0
    fromhost := c.fit u.fromhost
    timerIp := u.timerIp
    lines := u.lines &&& c.extIrq
    errmode := false
    fp := u.fp
    mem := Memory.ofCells u.mem
    output := []
    agenda := []
    draws := 0
    storedBytes := []
    storedUnderVm := []
    ptbrUnderVm := false }

/-- The choice of undefined values that `State.reset` makes (log 4). -/
def UndefinedAtReset.zero : UndefinedAtReset :=
  { x := Vector.replicate 32 0, im := 0, ps := false, u64 := false, ef := false, epc := 0,
    badvaddr := 0, evec := 0, count := 0, compare := 0, cause := 0, ptbr := 0, k0 := 0, k1 := 0,
    fromhost := 0, timerIp := false, lines := 0, fp := 0, mem := [] }

end Sys2Proof.Machine
end

