-- ==== Sys2Proof/Machine/Operands.lean ====
section
/-! DEFINITION. The operand forms: x registers (10_state.md R20 to R22) and control registers
(40_privileged.md R172, R175). Every read and write of either goes through these. -/

namespace Sys2Proof.Machine

/-- `x[i]`; `x[0]` reads 0 (00_scope.md R16, 10_state.md R21). -/
def State.readX (s : State) (i : RegIdx) : Word :=
  if i = 0 then 0 else s.x[i]

/-- `x[i] <- v`; a write to `x[0]` is discarded (00_scope.md R16, 10_state.md R21). -/
def State.writeX (s : State) (i : RegIdx) (v : Word) : State :=
  if i = 0 then s else { s with x := s.x.set i (s.conf.fit v) }

/-- `Ext32` (40_privileged.md R172): a 32-bit control register as the value of an x register. -/
def ext32 (v : BitVec 32) (s : State) : Word × State :=
  if s.conf.providesRv64 then
    match s.conf.pcr32Ext with
    | .zero => (v.setWidth 64, s)
    | .sign => (v.signExtend 64, s)
    | .unfixed => (low32 s.draw.1 ++ v, s.draw.2)
  else (v.setWidth 64, s)

/-- `ReadPcr(N)` (40_privileged.md R172), with the state after any draw. An unused number reads 0, the
value of the policy that lets it be read (10_state.md R30). -/
def readPcr (cr : Pcr) (s : State) : Word × State :=
  match cr with
  | .status => ext32 (statusWord s.conf.statusLayout s.status) s
  | .epc => (s.epc, s)
  | .badvaddr => (s.badvaddr, s)
  | .evec => (s.evec, s)
  | .count => ext32 s.count s
  | .compare => ext32 s.compare s
  | .cause => ext32 s.cause s
  | .ptbr => (s.ptbr, s)
  | .k0 => (s.k0, s)
  | .k1 => (s.k1, s)
  | .tohost => (s.tohost, s)
  | .fromhost => (s.fromhost, s)
  | .unused _ => (0, s)

/-- A write of `count` (40_privileged.md R175): when it makes `count` equal to `compare`, whether the
request is raised is a free value. -/
def writeCount (v : BitVec 32) (s : State) : State :=
  if v = s.compare then
    { s with
      count := v
      timerIp := s.timerIp || s.draw.1.getLsbD 0
      draws := s.draws + 1 }
  else { s with count := v }

/-- `WritePcr(N, v)` (40_privileged.md R175). A read-only register, `cause` and an unused number keep
what they hold; whether such a write is refused is decided before (R176, 10_state.md R30). -/
def writePcr (cr : Pcr) (v : Word) (s : State) : State :=
  match cr with
  | .status => { s with status := statusOfWord s.conf (low32 v) }
  | .epc => s
  | .badvaddr => s
  | .evec => { s with evec := s.conf.fit (v &&& ~~~3#64) }
  | .count => writeCount (low32 v) s
  | .compare => { s with compare := low32 v, timerIp := false }
  | .cause => s
  | .ptbr => { s with ptbr := s.conf.fit v, ptbrUnderVm := s.ptbrUnderVm || s.status.vm }
  | .k0 => { s with k0 := s.conf.fit v }
  | .k1 => { s with k1 := s.conf.fit v }
  | .tohost => { s with tohost := s.conf.fit v, output := s.output ++ [s.conf.fit v] }
  | .fromhost => s
  | .unused _ => s

/-- The registers VOL2 calls read only without saying that writes are ignored (40_privileged.md
R176). -/
def Pcr.isReadOnly : Pcr → Bool
  | .epc => true
  | .badvaddr => true
  | .fromhost => true
  | .status => false
  | .evec => false
  | .count => false
  | .compare => false
  | .cause => false
  | .ptbr => false
  | .k0 => false
  | .k1 => false
  | .tohost => false
  | .unused _ => false

/-- Table 1 calls the number unused (10_state.md R30). -/
def Pcr.isUnused : Pcr → Bool
  | .unused _ => true
  | .status => false
  | .epc => false
  | .badvaddr => false
  | .evec => false
  | .count => false
  | .compare => false
  | .cause => false
  | .ptbr => false
  | .k0 => false
  | .k1 => false
  | .tohost => false
  | .fromhost => false

/-- The `UNUSED_PCR` policy before an access (10_state.md R30): an unused number is refused, raises
"Illegal instruction", or goes on to read zero and ignore the write. -/
def onPcr (cr : Pcr) (s : State) (act : State → Result) : Result :=
  if Pcr.isUnused cr then
    match s.conf.unusedPcr with
    | .refuse => .refused .unusedPcr
    | .illegalInstruction => raise .illegalInstr 0 s
    | .readZeroIgnoreWrite => act s
  else act s

end Sys2Proof.Machine
end

