-- ==== Sys2Proof/Machine/Translate.lean ====
section
/-! DEFINITION. Address translation and protection (20_memory.md R89 to R103), and the accesses made
through it: fetch, load, store (R86, R87, 41_base_isa_interface.md R195, R196). -/

namespace Sys2Proof.Machine

/-- The constants of a variant (00_scope.md R14). -/
structure Paging where
  levels : Nat
  pgoffBits : Nat
  pteSize : Nat
  ppnBits : Nat
  deriving DecidableEq, Repr

/-- RV32S and RV64S (00_scope.md R14); the argument says whether RV64S is in force. -/
def Paging.of (rv64s : Bool) : Paging :=
  if rv64s then { levels := 3, pgoffBits := 13, pteSize := 8, ppnBits := 51 }
  else { levels := 2, pgoffBits := 12, pteSize := 4, ppnBits := 20 }

/-- `PAGE_SIZE` (00_scope.md R14). -/
def Paging.pageSize (p : Paging) : Nat :=
  2 ^ p.pgoffBits

/-- `va.vpn[i]`: the 10 bits above the page offset and the `i` lower parts (20_memory.md R89, R91). -/
def Paging.vpn (p : Paging) (va : Word) (i : Nat) : Nat :=
  va.toNat / 2 ^ (p.pgoffBits + 10 * i) % 1024

/-- The size of the region a leaf at level `i` maps (20_memory.md R101). -/
def Paging.leafSize (p : Paging) (i : Nat) : Nat :=
  2 ^ (p.pgoffBits + 10 * i)

/-- The fields of a PTE (20_memory.md R93). -/
structure Pte where
  e : Bool
  t : Bool
  ux : Bool
  uw : Bool
  ur : Bool
  sx : Bool
  sw : Bool
  sr : Bool
  ppn : Nat
  deriving DecidableEq, Repr

/-- A PTE word under a layout (20_memory.md R93). -/
def Pte.ofWord (l : PteLayout) (rv64s : Bool) (w : Word) : Pte :=
  { e := w.getLsbD l.e
    t := w.getLsbD l.t
    ux := w.getLsbD l.ux
    uw := w.getLsbD l.uw
    ur := w.getLsbD l.ur
    sx := w.getLsbD l.sx
    sw := w.getLsbD l.sw
    sr := w.getLsbD l.sr
    ppn := w.toNat / 2 ^ (if rv64s then l.ppnLow64 else l.ppnLow32) %
      2 ^ (Paging.of rv64s).ppnBits }

/-- `Allowed(pte, kind, mode)` (20_memory.md R98); `mode` is `status.S`. -/
def Pte.allows (pte : Pte) (kind : AccessKind) (mode : Bool) : Bool :=
  match mode, kind with
  | true, .load => pte.sr
  | true, .store => pte.sw
  | true, .fetch => pte.sx
  | false, .load => pte.ur
  | false, .store => pte.uw
  | false, .fetch => pte.ux

/-- The physical address of a leaf at level `i` (20_memory.md R96 step 3): the PTE's page number above
the superpage boundary, the virtual address below it. -/
def Paging.leafAddress (p : Paging) (pte : Pte) (va : Word) (i : Nat) : Nat :=
  pte.ppn / 2 ^ (10 * i) * p.leafSize i + va.toNat % p.leafSize i

/-- Bits 63 to 43 all equal to bit 42 (20_memory.md R95). -/
def canonical (va : Word) : Bool :=
  (va.setWidth 43).signExtend 64 == va

/-- `AccessFault(kind)` (20_memory.md R99). -/
def accessFault : AccessKind → Cause
  | .fetch => .instrAccessFault
  | .load => .loadAccessFault
  | .store => .storeAccessFault

/-- What an access answers: a value, the exception it raises with the faulting address, or a
refusal. -/
inductive Access (α : Type) where
  | ok (a : α)
  | trap (c : Cause) (va : Word)
  | refused (r : Refusal)
  deriving DecidableEq, Repr

/-- What one level of the walk finds (20_memory.md R96 steps 2 to 4, R103). -/
inductive Entry where
  /-- A leaf that grants the access, with the physical address. -/
  | leaf (pa : Nat)
  /-- A pointer to the table at `a`. -/
  | table (a : Nat)
  /-- "signal an address error". -/
  | error
  | refused (r : Refusal)
  deriving DecidableEq, Repr

/-- A PTE read: `PTE_SIZE` bytes of physical memory, untranslated and unchecked (20_memory.md R102). -/
def readPte (s : State) (a : Nat) : Except Refusal Pte :=
  let n := (Paging.of s.status.s64).pteSize
  match physRead s a n with
  | none => .error .absentMemory
  | some w =>
    if s.conf.tlbCoherent || ptStable s a n then
      .ok (Pte.ofWord s.conf.pteLayout s.status.s64 w)
    else .error .incoherentWalk

/-- The address of the PTE for `va` in the table at `a` of level `i`: `a + va.vpn[i] x PTE_SIZE`
(20_memory.md R96 step 2). -/
def pteAddress (s : State) (va : Word) (i a : Nat) : Nat :=
  a + (Paging.of s.status.s64).vpn va i * (Paging.of s.status.s64).pteSize

/-- What a PTE read at level `i` means (20_memory.md R96 steps 3 and 4, R103). -/
def Pte.entry (pte : Pte) (p : Paging) (va : Word) (kind : AccessKind) (mode : Bool) (i : Nat) :
    Entry :=
  if pte.e then
    if pte.allows kind mode then .leaf (p.leafAddress pte va i) else .error
  else if ! pte.t || i = 0 then .error
  else .table (pte.ppn * p.pageSize)

/-- Steps 2 to 4 of the walk at level `i` of the table at `a` (20_memory.md R96). -/
def walkEntry (s : State) (va : Word) (kind : AccessKind) (mode : Bool) (i a : Nat) : Entry :=
  match readPte s (pteAddress s va i a) with
  | .error r => .refused r
  | .ok pte => pte.entry (Paging.of s.status.s64) va kind mode i

/-- The walk from level `i` down (20_memory.md R96). -/
def walk (s : State) (va : Word) (kind : AccessKind) (mode : Bool) : Nat → Nat → Access Nat
  | 0, a =>
    match walkEntry s va kind mode 0 a with
    | .leaf pa => .ok pa
    | .refused r => .refused r
    | .error => .trap (accessFault kind) va
    | .table _ => .trap (accessFault kind) va
  | i + 1, a =>
    match walkEntry s va kind mode (i + 1) a with
    | .leaf pa => .ok pa
    | .refused r => .refused r
    | .error => .trap (accessFault kind) va
    | .table a' => walk s va kind mode i a'

/-- `Translate(va, kind, mode)` (20_memory.md R96, with R95, R97 and R100). -/
def translateAddr (s : State) (va : Word) (kind : AccessKind) (mode : Bool) : Access Nat :=
  let p := Paging.of s.status.s64
  if s.status.s64 && ! canonical va && (s.status.vm || s.conf.canonCheckVm0) then
    .trap (accessFault kind) va
  else if ! s.status.vm then .ok va.toNat
  else if s.ptbr.toNat % p.pageSize ≠ 0 then .refused .misalignedPtbr
  else walk s va kind mode (p.levels - 1) s.ptbr.toNat

/-- `MemRead(va, n)` (41_base_isa_interface.md R195): the alignment check of 20_memory.md R87, then
translation, then the read. -/
def memRead (s : State) (va : Word) (w : Width) : Access Word :=
  if va.toNat % w.bytes ≠ 0 then .trap .loadMisaligned va
  else
    match translateAddr s va .load s.status.s with
    | .trap c a => .trap c a
    | .refused r => .refused r
    | .ok pa =>
      match physRead s pa w.bytes with
      | some v => .ok v
      | none => .refused .absentMemory

/-- `MemWrite(va, n, v)` (41_base_isa_interface.md R196); a store that raises writes nothing. -/
def memWrite (s : State) (va : Word) (w : Width) (v : Word) : Access State :=
  if va.toNat % w.bytes ≠ 0 then .trap .storeMisaligned va
  else
    match translateAddr s va .store s.status.s with
    | .trap c a => .trap c a
    | .refused r => .refused r
    | .ok pa =>
      match physWrite s pa w.bytes v with
      | some s' => .ok s'
      | none => .refused .absentMemory

/-- `Fetch(pc)` (20_memory.md R86): alignment, translation, then the four bytes; a byte stored to since
reset is fetched only where `IFETCH_COHERENT` (R113). -/
def fetch (s : State) : Access (BitVec 32) :=
  if s.pc.toNat % 4 ≠ 0 then .trap .instrMisaligned s.pc
  else
    match translateAddr s s.pc .fetch s.status.s with
    | .trap c a => .trap c a
    | .refused r => .refused r
    | .ok pa =>
      match physRead s pa 4 with
      | none => .refused .absentMemory
      | some v =>
        if s.conf.ifetchCoherent || noSmc s pa then .ok (low32 v)
        else .refused .incoherentFetch

end Sys2Proof.Machine
end

