-- ==== Sys2Proof/Machine/Base.lean ====
section
/-! DEFINITION. The base-ISA instruction classes as the supervisor architecture sees them
(41_base_isa_interface.md R190 to R197). What an instruction computes is `BASE_ISA`'s; what this
architecture adds, the traps and the accesses, is here. -/

namespace Sys2Proof.Machine

/-- What a base instruction sees of the state (41_base_isa_interface.md R190). -/
def State.userView (s : State) : UserView :=
  { x := s.x.set 0 0, pc := s.pc, fp := s.fp }

/-- The state with what a base instruction leaves; `x[0]` stays zero and values fit their registers. -/
def State.withEffect (s : State) (e : BaseEffect) : State :=
  { s with x := (e.x.map s.conf.fit).set 0 0, pc := s.conf.fit (BitVec.ofInt 64 e.pc), fp := e.fp }

/-- The effective address of a base instruction, `XPRLEN` bits (41_base_isa_interface.md R195). -/
def baseAddress (isa : BaseIsa) (w : BitVec 32) (s : State) : Word :=
  s.conf.fit (isa.address s.rv64InForce w s.userView)

/-- `ExecBase` of `w`, `loaded` being what it loaded (41_base_isa_interface.md R190). -/
def baseEffect (isa : BaseIsa) (w : BitVec 32) (s : State) (loaded : Word) : BaseEffect :=
  isa.result s.rv64InForce w s.userView loaded

/-- A base instruction completes with its effect (10_state.md R24 (d), R26). -/
def finish (e : BaseEffect) (s : State) : Result :=
  complete e.pc (s.withEffect e)

/-- Class `Load(n)` (41_base_isa_interface.md R195). -/
def execLoad (isa : BaseIsa) (w : BitVec 32) (n : Width) (s : State) : Result :=
  match memRead s (baseAddress isa w s) n with
  | .trap c va => raise c va s
  | .refused r => .refused r
  | .ok v => finish (baseEffect isa w s v) s

/-- Class `Store(n)` (41_base_isa_interface.md R196). -/
def execStore (isa : BaseIsa) (w : BitVec 32) (n : Width) (s : State) : Result :=
  match memWrite s (baseAddress isa w s) n (isa.storeData s.rv64InForce w s.userView) with
  | .trap c va => raise c va s
  | .refused r => .refused r
  | .ok s' => finish (baseEffect isa w s 0) s'

/-- Class `Other` (41_base_isa_interface.md R197). -/
def execOther (isa : BaseIsa) (w : BitVec 32) (s : State) : Result :=
  finish (baseEffect isa w s 0) s

/-- Class `FloatingPoint` (41_base_isa_interface.md R192): disabled with `EF = 0` in either mode, else
the access it makes, if any, and its result. -/
def execFloatingPoint (isa : BaseIsa) (w : BitVec 32) (access : Option (DataKind × Width))
    (s : State) : Result :=
  if s.status.ef then
    match access with
    | none => execOther isa w s
    | some (.load, n) => execLoad isa w n s
    | some (.store, n) => execStore isa w n s
  else raise .fpDisabled 0 s

/-- A base instruction by its class (41_base_isa_interface.md R190, R193, R194). -/
def execBase (isa : BaseIsa) (w : BitVec 32) (c : BaseClass) (s : State) : Result :=
  match c with
  | .floatingPoint access => execFloatingPoint isa w access s
  | .systemCall => raise .systemCall 0 s
  | .breakpoint => raise .breakpoint 0 s
  | .load n => execLoad isa w n s
  | .store n => execStore isa w n s
  | .other => execOther isa w s

/-- The three assembler forms of Figure 14 that belong to the base ISA, as abstract operations: no source
gives their words (30_encoding.md R154, 41_base_isa_interface.md R199). -/
inductive AssemblerForm where
  | la (rd : RegIdx) (label : Word)
  | li (rd : RegIdx) (c : Word)
  | j (label : Word)
  deriving DecidableEq, Repr

/-- What a form does to the x registers and the `pc`; `after` is the address after the form, which may be
several instructions (41_base_isa_interface.md R199). -/
def assemblerEffect (f : AssemblerForm) (after : Int) (v : UserView) : BaseEffect :=
  match f with
  | .la rd label => { x := v.x.set rd label, pc := after, fp := v.fp }
  | .li rd c => { x := v.x.set rd c, pc := after, fp := v.fp }
  | .j label => { x := v.x, pc := label.toNat, fp := v.fp }

/-- A form of Figure 14 performed: an instruction or instructions of class `Other`, under whatever words
`BASE_ISA` gives it. -/
def execAssemblerForm (f : AssemblerForm) (after : Int) (s : State) : Result :=
  finish (assemblerEffect f after s.userView) s

end Sys2Proof.Machine
end

