-- ==== Sys2Proof/Machine/Privileged.lean ====
section
/-! DEFINITION. The meanings of the three instructions of the opcode table (40_privileged.md). -/

namespace Sys2Proof.Machine

/-- `mfpcr xD, crN` (40_privileged.md R171). -/
def execMfpcr (rd : RegIdx) (cr : Pcr) (s : State) : Result :=
  inSupervisorMode s fun s =>
    onPcr cr s fun s => advance ((readPcr cr s).2.writeX rd (readPcr cr s).1)

/-- `mtpcr xS, crN` (40_privileged.md R174); a read-only register is refused where `RO_WRITE` says so
(R176). -/
def execMtpcr (rs : RegIdx) (cr : Pcr) (s : State) : Result :=
  inSupervisorMode s fun s =>
    onPcr cr s fun s =>
      if Pcr.isReadOnly cr ∧ s.conf.roWrite = .refuse then .refused .readOnlyPcr
      else advance (writePcr cr (s.readX rs) s)

/-- `eret` (40_privileged.md R177). -/
def execEret (s : State) : Result :=
  inSupervisorMode s fun s => .next (returnFromException s)

end Sys2Proof.Machine
end

