-- ==== Sys2Proof/Machine/Dispatch.lean ====
section
/-! DEFINITION. One arm per instruction. -/

namespace Sys2Proof.Machine

def exec (i : Instr) (s : State) : Host.Outcome State Fault Refusal :=
  match i with
  | .mfpcr rd cr => Sys2Proof.Machine.execMfpcr rd cr s
  | .mtpcr rs cr => Sys2Proof.Machine.execMtpcr rs cr s
  | .eret => Sys2Proof.Machine.execEret s

end Sys2Proof.Machine
end

