-- ==== Sys2Proof/Machine/Cycle.lean ====
section
/-! DEFINITION. One move of each agent: the processor's instruction step (60_exceptions.md R237) and the
moves of the clock, the host, the external lines and reset. -/

namespace Sys2Proof.Machine

/-- The part of the instruction step after the interrupt (60_exceptions.md R237): fetch, decode, trap or
perform. -/
def execAtPc (isa : Isa) (s : State) : Result :=
  match fetch s with
  | .trap c va => raise c va s
  | .refused r => .refused r
  | .ok w =>
    match isa.decode s.rv64InForce w with
    | .illegal => raise .illegalInstr 0 s
    | .privileged i => exec i s
    | .base c => execBase isa.base w c s

/-- One instruction step of the processor (60_exceptions.md R237). With `takeInterrupt` a qualifying
interrupt is taken; without, the instruction at `pc` is executed, the other continuation R233
admits. -/
def cpuMove (isa : Isa) (takeInterrupt : Bool) (s : State) : Result :=
  if s.errmode then .fault .errorMode
  else if s.mixedWidth then .refused .mixedWidth
  else
    match (if takeInterrupt then s.leastQualifying else none) with
    | some i => raise (.interrupt i) 0 s
    | none => execAtPc isa s

/-- A connected external line goes to a level; an unconnected line stays 0 (60_exceptions.md R230). -/
def setLine (i : Fin 7) (level : Bool) (s : State) : State :=
  { s with
    lines := ((s.lines &&& ~~~(1#7 <<< i.val)) ||| (if level then 1#7 <<< i.val else 0#7)) &&&
      s.conf.extIrq }

/-- `HostWrite(v)` (60_exceptions.md R266). -/
def hostWrite (v : Word) (s : State) : State :=
  { s with fromhost := s.conf.fit v }

/-- External reset (70_reset_and_hazards.md R290): the implementation stays, and so does what the model
keeps of the future: the agenda and the count of free values. -/
def externalReset (u : UndefinedAtReset) (s : State) : State :=
  { resetWith s.conf u with agenda := s.agenda, draws := s.draws }

/-- One move of an agent. -/
def applyEvent (isa : Isa) (e : Event) (s : State) : Result :=
  match e with
  | .tick => .next (tick s)
  | .hostWrite v => .next (hostWrite v s)
  | .line i level => .next (setLine i level s)
  | .run => cpuMove isa true s
  | .defer => cpuMove isa false s
  | .reset u => .next (externalReset u s)

/-- The next move of the machine: the head of the agenda; with an empty agenda the clock ticks once and
the processor moves, interrupts first (60_exceptions.md R233, R260, log 21). -/
def stepWith (isa : Isa) (s : State) : Result :=
  match s.agenda with
  | e :: rest => applyEvent isa e { s with agenda := rest }
  | [] => cpuMove isa true (tick s)

/-- The physical address of the next fetch; where the fetch would trap, `pc` itself. -/
def fetchAddress (s : State) : Nat :=
  match translateAddr s s.pc .fetch s.status.s with
  | .ok pa => pa
  | .trap _ _ => s.pc.toNat
  | .refused _ => s.pc.toNat

/-- The state with an instruction's bits stored where the next fetch reads, as memory a program was
loaded into and not as a store of the processor's, and the processor to move next (log 38). -/
def placeInstruction (s : State) (w : BitVec 32) : State :=
  let pa := fetchAddress s
  { s with
    mem := s.mem.writeLE pa 4 (w.setWidth 64)
    storedBytes := s.storedBytes.filter fun a => a < pa || pa + 4 ≤ a
    agenda := .defer :: s.agenda }

end Sys2Proof.Machine
end

