-- ==== Sys2Proof/Machine/Step.lean ====
section
/-! DEFINITION. The step of the machine. -/

namespace Sys2Proof.Machine

/-- One move of one agent (60_exceptions.md R237, R260, R266), under the default `DECODE`. -/
def step (s : State) : Host.Outcome State Fault Refusal :=
  stepWith Isa.default s

/-- The state whose very next step runs the instruction of table bits `w` (log 38). -/
def State.withFetchWord (s : State) (nbits w : Nat) : State :=
  placeInstruction s (BitVec.ofNat 32 (w % 2 ^ nbits))

end Sys2Proof.Machine
end

