-- ==== Sys2Proof/Safety.lean ====
section
/-! DEFINITION. The terms claims use: the invariant of every reachable state, the runs of the machine,
error mode, and the end of a run. -/

namespace Sys2Proof

/-- A value of at most `XPRLEN_IMPL` bits (00_scope.md R7). -/
abbrev Config.Fits (c : Config) (v : Word) : Prop :=
  c.fit v = v

namespace Machine

/-- Every register of `XPRLEN_IMPL` bits holds a value of that width (10_state.md R20, R23, R28). -/
structure State.WidthsHold (s : State) : Prop where
  x : ∀ i : Fin 32, s.conf.Fits s.x[i]
  pc : s.conf.Fits s.pc
  epc : s.conf.Fits s.epc
  badvaddr : s.conf.Fits s.badvaddr
  evec : s.conf.Fits s.evec
  ptbr : s.conf.Fits s.ptbr
  k0 : s.conf.Fits s.k0
  k1 : s.conf.Fits s.k1
  tohost : s.conf.Fits s.tohost
  fromhost : s.conf.Fits s.fromhost
  output : ∀ v ∈ s.output, s.conf.Fits v

/-- The invariant of `status` (10_state.md R43): hard-wired fields hold their hard-wired values, and
`S64 = 0` implies `U64 = 0`. -/
structure State.StatusLegal (s : State) : Prop where
  s64 : s.conf.s64Of s.status.s64 = s.status.s64
  u64 : s.conf.u64Of s.status.s64 s.status.u64 = s.status.u64
  ef : s.conf.efOf s.status.ef = s.status.ef
  u64_of_s64 : s.status.s64 = false → s.status.u64 = false

/-- What holds in every reachable state. -/
structure State.Inv (s : State) : Prop where
  /-- Memory keeps its canonical form. -/
  mem : s.mem.Wf
  /-- `x[0]` is zero (10_state.md R21). -/
  x0 : s.x[0] = 0
  widths : s.WidthsHold
  /-- `evec[1:0] = 0` (10_state.md R48). -/
  evecAligned : s.evec &&& 3#64 = 0#64
  status : s.StatusLegal
  /-- Unconnected lines are 0 (60_exceptions.md R230). -/
  lines : s.lines &&& s.conf.extIrq = s.lines
  /-- The recorded addresses are strictly rising. -/
  storedBytes : s.storedBytes.Pairwise (· < ·)
  storedUnderVm : s.storedUnderVm.Pairwise (· < ·)

/-- An instruction may go on to `target`: it stays in the register, or the implementation wraps it
(10_state.md R26, log 15). -/
abbrev State.CanGoTo (s : State) (target : Int) : Prop :=
  s.conf.pcWrap = .wrap ∨ (0 ≤ target ∧ target < ((2 ^ s.conf.xlen : Nat) : Int))

/-- The step can move past an instruction. -/
abbrev State.CanAdvance (s : State) : Prop :=
  s.CanGoTo (s.pc.toNat + 4)

/-- From `s`, the state after any store it made, a base instruction completes in `t` with its effect: the x
registers, the `pc` and the floating-point state as `BASE_ISA` gives them, and nothing else
(41_base_isa_interface.md R190, 10_state.md R21, R24 (d)). -/
structure State.CompletesAs (s : State) (e : BaseEffect) (t : State) : Prop where
  x : ∀ i : RegIdx, t.readX i = if i = 0 then 0 else s.conf.fit e.x[i]
  pc : t.pc = s.conf.fit (BitVec.ofInt 64 e.pc)
  fp : t.fp = e.fp
  frame : t = { s with x := t.x, pc := t.pc, fp := t.fp }

/-- The states the machine goes to from `s`, in any number of steps. -/
inductive Reaches (isa : Isa) (s : State) : State → Prop where
  | refl : Reaches isa s s
  | step {t u : State} : Reaches isa s t → stepWith isa t = .next u → Reaches isa s u

/-- A state an implementation's reset can leave, with the moves its agents will make (10_state.md R62). -/
def State.AfterReset (s : State) : Prop :=
  ∃ c u agenda draws, s = { resetWith c u with agenda := agenda, draws := draws }

/-- A state reached from reset. -/
def Reachable (isa : Isa) (s : State) : Prop :=
  ∃ r, State.AfterReset r ∧ Reaches isa r s

/-- Error mode is never the end of a run (60_exceptions.md R268): a run ends in a state that is not in
error mode and satisfies the parameter `END_OF_RUN`. -/
def RunEnds (endOfRun : State → Bool) (s : State) : Bool :=
  ! s.errmode && endOfRun s

/-- The typical `END_OF_RUN` of a test rig (60_exceptions.md R268, 95_test_vectors.md Part 3). -/
def tohostWritten (s : State) : Bool :=
  s.tohost != 0

end Machine

end Sys2Proof
end

