-- ==== Sys2Proof/Certificates/Slice0/Obligations.lean ====
section
/-! DEFINITION. The statements about the model, each from a rule of the spec. Those that rest on a
decision of the spec, a derivation it marks as its own, or a log entry are marked `derived` in
OBLIGATIONS.json. -/

open Sys2Proof Sys2Proof.Machine

/-! ## Encoding -/

/-- Words of the default encoding written out in 95_test_vectors.md V-ENC decode to the instruction they
stand for, and the four negative words to none (30_encoding.md R143, a default of the spec's own, log
7). -/
def Obligations.TableWordsDecode : Prop :=
  decodeWord 0x1180017B = some (.mfpcr 2 .cause) ∧
  decodeWord 0xFC40017B = some (.mfpcr 31 .fromhost) ∧
  decodeWord 0xFFC0017B = some (.mfpcr 31 (.unused 31)) ∧
  decodeWord 0x00C201FB = some (.mtpcr 1 .evec) ∧
  decodeWord 0x037E01FB = some (.mtpcr 31 .k1) ∧
  decodeWord 0x0000027B = some .eret ∧
  decodeWord 0x0000037B = none ∧
  decodeWord 0x0000057B = none ∧
  decodeWord 0x0800027B = none ∧
  decodeWord 0x080001FB = none

/-- Decoding the bytes of a well-formed instruction gives it back, whatever bytes follow: no operand
bit is dropped (30_encoding.md R142, R143, the default of log 7). -/
def Obligations.DecodeOfEncode : Prop :=
  ∀ (i : Instr) (rest : List Byte), i.wellFormed = true →
    decodeBytes (encode i ++ rest) = .ok (i, rest)

/-- A word that decodes is the one word of its instruction, and that instruction is well-formed
(30_encoding.md R143, the default of log 7). -/
def Obligations.EncodeOfDecode : Prop :=
  ∀ (w : BitVec 32) (i : Instr), decodeWord w = some i → encodeWord i = w ∧ i.wellFormed = true

/-- No word matches two rows, and every pair of an x register and a control register number has a word
in each of `mfpcr` and `mtpcr` (the requirements of 30_encoding.md R141, met by the default of log
7). -/
def Obligations.OpcodeRowsDisjointAndComplete : Prop :=
  opcodeTable.Pairwise (fun r q => ∀ w, ¬ (r.covers w = true ∧ q.covers w = true)) ∧
  ∀ (x : RegIdx) (n : Fin 32),
    (∃ w, decodeWord w = some (.mfpcr x (.ofNumber n))) ∧
    (∃ w, decodeWord w = some (.mtpcr x (.ofNumber n)))

/-! ## The privileged instructions -/

/-- In user mode each of the three instructions does nothing but raise "Privileged instruction" (code
3), with `epc` its own address (40_privileged.md R170; that `eret` is privileged is the spec's decision
D16). -/
def Obligations.PrivilegedInstructionsTrapInUserMode : Prop :=
  ∀ (i : Instr) (s : State), s.status.s = false →
    exec i s = .next (takeException .privilegedInstr s.pc 0 s) ∧
    (s.status.et = true → ∃ t, exec i s = .next t ∧ t.cause = 3 ∧ t.epc = s.pc ∧ t.pc = s.evec ∧
      t.x = s.x ∧ t.mem = s.mem)

/-- In supervisor mode `mfpcr` of a control register of `XPRLEN` bits completes, unless it would wrap
the `pc` (10_state.md R26, log 15): the register's value is in the destination (a write to `x0` is
discarded), every other x register is as before, the `pc` has moved by 4, and nothing else has changed
(40_privileged.md R171, R172; the reading of `mfpcr` is decision D10). -/
def Obligations.MfpcrReadsFullWidthRegister : Prop :=
  ∀ (s : State) (rd : RegIdx), s.status.s = true → s.CanAdvance →
    ∀ p ∈ [(Pcr.epc, s.epc), (.badvaddr, s.badvaddr), (.evec, s.evec), (.ptbr, s.ptbr),
        (.k0, s.k0), (.k1, s.k1), (.tohost, s.tohost), (.fromhost, s.fromhost)],
      ∃ t, exec (.mfpcr rd p.1) s = .next t ∧
        (∀ i, t.readX i = if i = rd ∧ i ≠ 0 then s.conf.fit p.2 else s.readX i) ∧
        t.pc = s.conf.fit (s.pc + 4) ∧
        t = { s with x := t.x, pc := t.pc }

/-- In supervisor mode `mfpcr` of a 32-bit control register completes, unless it would wrap the `pc`
(10_state.md R26, log 15): bits 31 to 0 of the destination are the register; on a 64-bit implementation
bits 63 to 32 are zero, copies of bit 31, or a free value, as `PCR32_EXT` says (40_privileged.md R172,
decision D15, log 16). -/
def Obligations.MfpcrExtends32BitRegister : Prop :=
  ∀ (s : State) (rd : RegIdx), s.status.s = true → s.CanAdvance →
    ∀ p ∈ [(Pcr.status, statusWord s.conf.statusLayout s.status), (.count, s.count),
        (.compare, s.compare), (.cause, s.cause)],
      ∃ t v, exec (.mfpcr rd p.1) s = .next t ∧
        (∀ i, t.readX i = if i = rd ∧ i ≠ 0 then v else s.readX i) ∧
        low32 v = p.2 ∧
        (s.conf.providesRv64 = false → v = p.2.setWidth 64) ∧
        (s.conf.providesRv64 = true → s.conf.pcr32Ext = .zero → v = p.2.setWidth 64) ∧
        (s.conf.providesRv64 = true → s.conf.pcr32Ext = .sign → v = p.2.signExtend 64) ∧
        t.pc = s.conf.fit (s.pc + 4) ∧
        t = { s with x := t.x, pc := t.pc, draws := t.draws }

/-- `mfpcr` in supervisor mode leaves everything but its destination and the `pc`: every other x
register, every control register, every byte of memory (40_privileged.md R171). The exception is an
unused number where `UNUSED_PCR` makes it an illegal instruction. -/
def Obligations.MfpcrFrame : Prop :=
  ∀ (s t : State) (rd : RegIdx) (cr : Pcr), s.status.s = true →
    ¬ (Pcr.isUnused cr = true ∧ s.conf.unusedPcr = .illegalInstruction) →
    exec (.mfpcr rd cr) s = .next t →
    (∀ i, i ≠ rd → t.readX i = s.readX i) ∧
    (∀ a, t.mem.readByte a = s.mem.readByte a) ∧
    t = { s with x := t.x, pc := t.pc, draws := t.draws }

/-- An unused control register number follows `UNUSED_PCR`: refused, an illegal instruction, or read as
zero with the write ignored (10_state.md R30, decision D17, log 17). -/
def Obligations.UnusedPcrFollowsPolicy : Prop :=
  ∀ (s : State) (x : RegIdx) (n : Fin 32), s.status.s = true →
    (s.conf.unusedPcr = .refuse →
      exec (.mfpcr x (.unused n)) s = .refused .unusedPcr ∧
      exec (.mtpcr x (.unused n)) s = .refused .unusedPcr) ∧
    (s.conf.unusedPcr = .illegalInstruction →
      exec (.mfpcr x (.unused n)) s = .next (takeException .illegalInstr s.pc 0 s) ∧
      exec (.mtpcr x (.unused n)) s = .next (takeException .illegalInstr s.pc 0 s)) ∧
    (s.conf.unusedPcr = .readZeroIgnoreWrite → s.CanAdvance →
      (∃ t, exec (.mfpcr x (.unused n)) s = .next t ∧
        (∀ i, t.readX i = if i = x then 0 else s.readX i) ∧
        t = { s with x := t.x, pc := s.conf.fit (s.pc + 4) }) ∧
      exec (.mtpcr x (.unused n)) s = .next { s with pc := s.conf.fit (s.pc + 4) })

/-- `mtpcr` to `epc`, `badvaddr` or `fromhost` follows `RO_WRITE`: refused, or ignored
(40_privileged.md R176, decision D31, log 18). -/
def Obligations.ReadOnlyPcrFollowsPolicy : Prop :=
  ∀ (s : State) (rs : RegIdx), s.status.s = true → ∀ cr ∈ [Pcr.epc, .badvaddr, .fromhost],
    (s.conf.roWrite = .refuse → exec (.mtpcr rs cr) s = .refused .readOnlyPcr) ∧
    (s.conf.roWrite = .ignored → s.CanAdvance →
      exec (.mtpcr rs cr) s = .next { s with pc := s.conf.fit (s.pc + 4) })

/-- In supervisor mode `mtpcr` completes, unless it would wrap the `pc` (10_state.md R26, log 15), and
writes the register it names and nothing else but the `pc`: `evec` with its two low bits cleared, the
low 32 bits for `count` and `compare`, the whole value for `ptbr`, `k0`, `k1` and `tohost`; `compare`
clears the timer request, a write of `cause` is ignored (40_privileged.md R174, R175; the low 32 bits
are decision D15). Two of the model's own records follow these writes: `tohost` adds the value to the
output (60_exceptions.md R265, decision D28, log 23), and `ptbr` keeps whether it was ever written with
`VM = 1` (log 27). -/
def Obligations.MtpcrWritesRegister : Prop :=
  ∀ (s : State) (rs : RegIdx), s.status.s = true → s.CanAdvance →
    let v := s.readX rs
    let next := s.conf.fit (s.pc + 4)
    exec (.mtpcr rs .evec) s = .next { s with evec := s.conf.fit (v &&& ~~~3#64), pc := next } ∧
    (low32 v ≠ s.compare →
      exec (.mtpcr rs .count) s = .next { s with count := low32 v, pc := next }) ∧
    exec (.mtpcr rs .compare) s =
      .next { s with compare := low32 v, timerIp := false, pc := next } ∧
    exec (.mtpcr rs .cause) s = .next { s with pc := next } ∧
    exec (.mtpcr rs .ptbr) s =
      .next { s with ptbr := s.conf.fit v, ptbrUnderVm := s.ptbrUnderVm || s.status.vm, pc := next } ∧
    exec (.mtpcr rs .k0) s = .next { s with k0 := s.conf.fit v, pc := next } ∧
    exec (.mtpcr rs .k1) s = .next { s with k1 := s.conf.fit v, pc := next } ∧
    exec (.mtpcr rs .tohost) s =
      .next { s with tohost := s.conf.fit v, output := s.output ++ [s.conf.fit v], pc := next }

/-- A write of `count` with the value of `compare` completes, unless it would wrap the `pc`
(10_state.md R26, log 15); the timer request stays set if it was, and otherwise may or may not be
raised (40_privileged.md R175, 60_exceptions.md R261, decision D22). -/
def Obligations.CountWriteMayRaiseRequest : Prop :=
  ∀ (s : State) (rs : RegIdx), s.status.s = true → s.CanAdvance → low32 (s.readX rs) = s.compare →
    ∃ raised : Bool, exec (.mtpcr rs .count) s =
      .next { s with count := s.compare, timerIp := s.timerIp || raised, draws := s.draws + 1,
                     pc := s.conf.fit (s.pc + 4) }

/-- In supervisor mode `mtpcr` to `status` completes, unless it would wrap the `pc` (10_state.md R26,
log 15): every writable field takes its bit of the value, hard-wired fields keep their values, `U64` is
cleared where the `S64` being written is 0, and nothing but `status` and the `pc` changes (10_state.md
R42; the layout is decision D11, `U64` against the new `S64` decision D24). -/
def Obligations.MtpcrWritesStatusFields : Prop :=
  ∀ (s : State) (rs : RegIdx), s.status.s = true → s.CanAdvance →
    let v := low32 (s.readX rs)
    let l := s.conf.statusLayout
    ∃ t, exec (.mtpcr rs .status) s = .next t ∧
      t = { s with status := t.status, pc := s.conf.fit (s.pc + 4) } ∧
      t.status.im = v.extractLsb' 8 8 ∧
      t.status.vm = v.getLsbD l.vm ∧ t.status.s = v.getLsbD l.s ∧
      t.status.ps = v.getLsbD l.ps ∧ t.status.et = v.getLsbD l.et ∧
      t.status.ef = (s.conf.hasFpu && v.getLsbD l.ef) ∧
      (s.conf.variant = .rv32sOnly → t.status.s64 = false ∧ t.status.u64 = false) ∧
      (s.conf.variant = .rv64sOnly → t.status.s64 = true) ∧
      (s.conf.variant = .rv32sAndRv64s → t.status.s64 = v.getLsbD l.s64) ∧
      (s.conf.variant ≠ .rv32sOnly → s.conf.hasRv32User = false → t.status.u64 = t.status.s64) ∧
      (s.conf.variant ≠ .rv32sOnly → s.conf.hasRv32User = true →
        t.status.u64 = (t.status.s64 && v.getLsbD l.u64))

/-- `mtpcr` in supervisor mode leaves every x register, every byte of memory and every control register
it does not name (40_privileged.md R174, R175). The exception is an unused number where `UNUSED_PCR`
makes it an illegal instruction. -/
def Obligations.MtpcrFrame : Prop :=
  ∀ (s t : State) (rs : RegIdx) (cr : Pcr), s.status.s = true →
    ¬ (Pcr.isUnused cr = true ∧ s.conf.unusedPcr = .illegalInstruction) →
    exec (.mtpcr rs cr) s = .next t →
    (∀ i, t.readX i = s.readX i) ∧
    (∀ a, t.mem.readByte a = s.mem.readByte a) ∧
    (cr ≠ .status → t.status = s.status) ∧
    (cr ≠ .evec → t.evec = s.evec) ∧
    (cr ≠ .count → t.count = s.count) ∧
    (cr ≠ .compare → t.compare = s.compare) ∧
    (cr ≠ .count → cr ≠ .compare → t.timerIp = s.timerIp) ∧
    (cr ≠ .ptbr → t.ptbr = s.ptbr) ∧
    (cr ≠ .k0 → t.k0 = s.k0) ∧
    (cr ≠ .k1 → t.k1 = s.k1) ∧
    (cr ≠ .tohost → t.tohost = s.tohost ∧ t.output = s.output) ∧
    t.epc = s.epc ∧ t.badvaddr = s.badvaddr ∧ t.cause = s.cause ∧ t.fromhost = s.fromhost ∧
    t.lines = s.lines ∧ t.errmode = s.errmode ∧ t.fp = s.fp ∧ t.conf = s.conf ∧
    t.agenda = s.agenda

/-- In supervisor mode `eret` completes: the mode becomes `PS`, exceptions are enabled, the `pc` becomes
`epc`, and nothing else changes, `PS` and memory included (40_privileged.md R177; `pc <- epc` is
decision D18). -/
def Obligations.EretCompletes : Prop :=
  ∀ s : State, s.status.s = true →
    ∃ t, exec .eret s = .next t ∧ t.pc = s.epc ∧ t.status.s = s.status.ps ∧ t.status.et = true ∧
      t = { s with pc := t.pc, status := { s.status with s := t.status.s, et := t.status.et } } ∧
      (∀ a, t.mem.readByte a = s.mem.readByte a)

/-! ## The status register -/

/-- What `mfpcr` of `status` shows after a write of `v`: writable fields as written, `S64`, `U64` and `EF`
as the implementation lets them be, and 0 in every bit no field names (10_state.md R33, R42, decision
D11), for every layout of distinct positions. -/
def Obligations.StatusReadsBack : Prop :=
  ∀ (c : Config) (v : BitVec 32) (i : Nat), c.statusLayout.Valid → i < 32 →
    let l := c.statusLayout
    let s64 := c.s64Of (v.getLsbD l.s64)
    (statusWord l (statusOfWord c v)).getLsbD i =
      if (8 ≤ i ∧ i ≤ 15) ∨ i = l.vm ∨ i = l.s ∨ i = l.ps ∨ i = l.et then v.getLsbD i
      else if i = l.s64 then s64
      else if i = l.u64 then c.u64Of s64 (v.getLsbD i)
      else if i = l.ef then c.efOf (v.getLsbD i)
      else false

/-- Writing back the word read from `status` restores every field, for every layout of distinct
positions, in every state whose hard-wired fields hold their values (10_state.md R33, R42, decision
D11). -/
def Obligations.StatusWordRestoresFields : Prop :=
  ∀ s : State, s.conf.statusLayout.Valid → s.StatusLegal →
    statusOfWord s.conf (statusWord s.conf.statusLayout s.status) = s.status

/-- `PS` (10_state.md R37): it takes `S` when an exception is taken, gives `S` its value and keeps its own
on `eret`, is read and written as a bit of `status`, and holds any value after reset. -/
def Obligations.PreviousModeBit : Prop :=
  (∀ (s : State) (c : Cause) (epcval va : Word), s.status.et = true →
    (takeException c epcval va s).status.ps = s.status.s) ∧
  (∀ s : State, s.status.s = true →
    ∃ t, exec .eret s = .next t ∧ t.status.s = s.status.ps ∧ t.status.ps = s.status.ps) ∧
  (∀ (s : State) (rs : RegIdx), s.status.s = true → s.CanAdvance →
    ∃ t, exec (.mtpcr rs .status) s = .next t ∧
      t.status.ps = (low32 (s.readX rs)).getLsbD s.conf.statusLayout.ps) ∧
  (∀ (l : StatusLayout) (st : Status), l.Valid → (statusWord l st).getLsbD l.ps = st.ps) ∧
  (∀ (c : Config) (b : Bool), ∃ u, (resetWith c u).status.ps = b)

/-- `ET` (10_state.md R41): with it clear no interrupt qualifies and any trap enters error mode; it is
cleared when an exception is taken, set by `eret`, read and written as a bit of `status`, and 0 after
reset. -/
def Obligations.ExceptionEnableBit : Prop :=
  (∀ (s : State), s.status.et = false →
    (∀ i, s.qualifies i = false) ∧
    (∀ (c : Cause) (epcval va : Word), (takeException c epcval va s).errmode = true)) ∧
  (∀ (s : State) (c : Cause) (epcval va : Word), s.status.et = true →
    (takeException c epcval va s).status.et = false ∧
    (takeException c epcval va s).errmode = s.errmode) ∧
  (∀ s : State, s.status.s = true → ∃ t, exec .eret s = .next t ∧ t.status.et = true) ∧
  (∀ (s : State) (rs : RegIdx), s.status.s = true → s.CanAdvance →
    ∃ t, exec (.mtpcr rs .status) s = .next t ∧
      t.status.et = (low32 (s.readX rs)).getLsbD s.conf.statusLayout.et) ∧
  (∀ (l : StatusLayout) (st : Status), l.Valid → (statusWord l st).getLsbD l.et = st.et) ∧
  (∀ (c : Config) (u : UndefinedAtReset), (resetWith c u).status.et = false)

/-! ## Exceptions and interrupts -/

/-- Taking an exception with exceptions enabled saves the `pc` and the mode, records the code, and for
codes 8 to 11 the faulting address, enters supervisor mode with exceptions disabled at `evec`, and
changes nothing else (60_exceptions.md R240; the code's place in `cause` is decision D13). -/
def Obligations.ExceptionEntry : Prop :=
  ∀ (s : State) (c : Cause) (epcval va : Word), s.status.et = true →
    let t := takeException c epcval va s
    t.epc = epcval ∧ t.cause = BitVec.ofNat 32 c.code ∧
    (c.code ∈ [8, 9, 10, 11] → t.badvaddr = va) ∧
    t.status.ps = s.status.s ∧ t.status.s = true ∧ t.status.et = false ∧ t.pc = s.evec ∧
    t.status = { s.status with ps := t.status.ps, s := t.status.s, et := t.status.et } ∧
    t = { s with epc := t.epc, cause := t.cause, badvaddr := t.badvaddr, status := t.status,
                 pc := t.pc, draws := t.draws } ∧
    (∀ a, t.mem.readByte a = s.mem.readByte a)

/-- Every exception from either mode goes to supervisor mode at `evec` (60_exceptions.md R248). -/
def Obligations.EveryExceptionGoesToSupervisor : Prop :=
  ∀ (s : State) (c : Cause) (epcval va : Word), s.status.et = true →
    (takeException c epcval va s).status.s = true ∧ (takeException c epcval va s).pc = s.evec

/-- No exception produces an unused code, and `cause` never holds one after an exception
(60_exceptions.md R221). -/
def Obligations.UnusedCodesNeverReported : Prop :=
  ∀ (s : State) (c : Cause) (epcval va : Word), s.status.et = true →
    (takeException c epcval va s).cause.toNat = c.code ∧
    c.code ≠ 5 ∧ ¬ (12 ≤ c.code ∧ c.code ≤ 15) ∧ ¬ (24 ≤ c.code ∧ c.code ≤ 31) ∧ c.code ≤ 31

/-- Error mode: entering it leaves the x registers, memory and the registers the spec does not call
undefined; in it every processor move faults, the clock, the host and the external lines go on, and only
reset leaves it (60_exceptions.md R243, 10_state.md R59, decision D26, log 20). -/
def Obligations.ErrorModeIsTerminal : Prop :=
  (∀ (s : State) (c : Cause) (epcval va : Word), s.status.et = false →
    let t := takeException c epcval va s
    t.errmode = true ∧
    t = { s with errmode := true, status := t.status, epc := t.epc, cause := t.cause,
                 badvaddr := t.badvaddr, pc := t.pc, draws := t.draws }) ∧
  (∀ (isa : Isa) (b : Bool) (s : State), s.errmode = true → cpuMove isa b s = .fault .errorMode) ∧
  (∀ (isa : Isa) (s : State), s.errmode = true →
    (∃ t, applyEvent isa .tick s = .next t ∧ t.count = s.count + 1 ∧
      t.timerIp = (s.timerIp || decide (s.count + 1 = s.compare)) ∧
      t = { s with count := t.count, timerIp := t.timerIp }) ∧
    (∀ v, applyEvent isa (.hostWrite v) s = .next { s with fromhost := s.conf.fit v }) ∧
    (∀ i b, ∃ t, applyEvent isa (.line i b) s = .next t ∧ t = { s with lines := t.lines })) ∧
  (∀ (isa : Isa) (e : Event) (s t : State), s.errmode = true → applyEvent isa e s = .next t →
    t.errmode = true ∨ ∃ u, e = .reset u) ∧
  (∀ (isa : Isa) (s : State) (u : UndefinedAtReset), ∃ t,
    applyEvent isa (.reset u) s = .next t ∧ t.errmode = false ∧ t.pc = 0x2000)

/-- `eret` in the handler goes back to the instruction that was trapped or interrupted, in its mode, with
exceptions enabled (40_privileged.md R178 (d), 60_exceptions.md R245). -/
def Obligations.EretResumesTheTrappedInstruction : Prop :=
  ∀ (s : State) (c : Cause) (va : Word), s.status.et = true →
    ∃ t, exec .eret (takeException c s.pc va s) = .next t ∧
      t.pc = s.pc ∧ t.status.s = s.status.s ∧ t.status.et = true ∧ t.x = s.x ∧ t.mem = s.mem

/-- The interrupt considered is the qualifying one of least index: requested, unmasked, exceptions
enabled, and no interrupt of higher priority qualifies (60_exceptions.md R231, decision D21). -/
def Obligations.InterruptPriority : Prop :=
  ∀ (s : State) (i : Fin 8),
    (s.leastQualifying = some i ↔
      (s.qualifies i = true ∧ ∀ j, j < i → s.qualifies j = false)) ∧
    (s.qualifies i = (s.status.et && s.status.im.getLsbD i &&
      (if i.val < 7 then s.lines.getLsbD i else s.timerIp))) ∧
    (s.leastQualifying = none ↔ ∀ j, s.qualifies j = false)

/-- A processor move that takes a qualifying interrupt enters the handler with `epc` the address of the
instruction displaced and code 16 + i, and clears no request; a move that defers it executes the
instruction (60_exceptions.md R232, R233, R240, decision D20). -/
def Obligations.InterruptTakenBetweenInstructions : Prop :=
  ∀ (isa : Isa) (s : State), s.errmode = false → s.mixedWidth = false →
    (∀ i, s.leastQualifying = some i → ∃ t, cpuMove isa true s = .next t ∧
      t.epc = s.pc ∧ t.cause.toNat = 16 + i.val ∧ t.pc = s.evec ∧ t.status.s = true ∧
      t.status.ps = s.status.s ∧ t.status.et = false ∧ t.ip = s.ip ∧ t.x = s.x ∧ t.mem = s.mem) ∧
    (s.leastQualifying = none → cpuMove isa true s = execAtPc isa s) ∧
    cpuMove isa false s = execAtPc isa s

/-- The moves of the clock, the host and the external lines, in every state, error mode included: a tick
adds 1 to `count` modulo 2^32 and raises the request when that makes `count` equal to `compare`; a host
write sets `fromhost`; a line event sets the level of a connected line and leaves an unconnected one low
(60_exceptions.md R230, R260, R266, decisions D22, D28, D29). -/
def Obligations.EnvironmentMoves : Prop :=
  ∀ (isa : Isa) (s : State),
    applyEvent isa .tick s =
      .next { s with count := s.count + 1, timerIp := s.timerIp || decide (s.count + 1 = s.compare) } ∧
    (∀ v, applyEvent isa (.hostWrite v) s = .next { s with fromhost := s.conf.fit v }) ∧
    (∀ i b, s.lines &&& s.conf.extIrq = s.lines →
      ∃ t, applyEvent isa (.line i b) s = .next t ∧ t = { s with lines := t.lines } ∧
        ∀ j : Fin 7, t.lines.getLsbD j =
          if j = i then (b && s.conf.extIrq.getLsbD i) else s.lines.getLsbD j)

/-- Nothing clears the timer request but a `mtpcr` to `compare` executed in supervisor mode, and reset
(60_exceptions.md R262): no exception, no `eret`, no write of `count` or `status`, no base
instruction. -/
def Obligations.OnlyCompareWriteClearsTheRequest : Prop :=
  ∀ (isa : Isa) (s t : State), s.timerIp = true → stepWith isa s = .next t → t.timerIp = false →
    (∃ u rest, s.agenda = .reset u :: rest) ∨
    (∃ w rs, fetch s = .ok w ∧ isa.privileged w = some (.mtpcr rs .compare) ∧ s.status.s = true)

/-! ## Memory and translation -/

/-- With `VM = 0` the physical address is the virtual address and no permission is checked in either
mode (20_memory.md R100), but in RV64S a non-canonical address traps where `CANON_CHECK_VM0` says so
(20_memory.md R95, decisions D4, D5, log 14). -/
def Obligations.UntranslatedWithoutVm : Prop :=
  ∀ (s : State) (va : Word) (kind : AccessKind) (mode : Bool), s.status.vm = false →
    (s.status.s64 = false → translateAddr s va kind mode = .ok va.toNat) ∧
    (s.status.s64 = true → canonical va = true ∨ s.conf.canonCheckVm0 = false →
      translateAddr s va kind mode = .ok va.toNat) ∧
    (s.status.s64 = true → canonical va = false → s.conf.canonCheckVm0 = true →
      translateAddr s va kind mode = .trap (accessFault kind) va)

/-- In RV64S an address whose bits 63 to 43 are not all equal to bit 42 raises the access fault of its
kind before any walk, whatever the page table (20_memory.md R95, decisions D4, D5, log 14). -/
def Obligations.NonCanonicalAddressTraps : Prop :=
  ∀ (s : State) (va : Word) (kind : AccessKind) (mode : Bool), s.status.s64 = true →
    (∃ b, 43 ≤ b ∧ b < 64 ∧ va.getLsbD b ≠ va.getLsbD 42) →
    s.status.vm = true ∨ s.conf.canonCheckVm0 = true →
    translateAddr s va kind mode = .trap (accessFault kind) va

/-- The permission bits (20_memory.md R98): in supervisor mode a load, store or fetch needs `SR`, `SW` or
`SX` of the leaf, in user mode `UR`, `UW` or `UX`, each bit by itself; a PTE that is no leaf carries no
permission. -/
def Obligations.PermissionBits : Prop :=
  ∀ (s : State) (va : Word) (i a : Nat) (pte : Pte),
    let p := Paging.of s.status.s64
    readPte s (pteAddress s va i a) = .ok pte →
    (pte.e = true →
      let pa := p.leafAddress pte va i
      walkEntry s va .load true i a = (if pte.sr then .leaf pa else .error) ∧
      walkEntry s va .store true i a = (if pte.sw then .leaf pa else .error) ∧
      walkEntry s va .fetch true i a = (if pte.sx then .leaf pa else .error) ∧
      walkEntry s va .load false i a = (if pte.ur then .leaf pa else .error) ∧
      walkEntry s va .store false i a = (if pte.uw then .leaf pa else .error) ∧
      walkEntry s va .fetch false i a = (if pte.ux then .leaf pa else .error)) ∧
    (pte.e = false → ∀ kind mode kind' mode',
      walkEntry s va kind mode i a = walkEntry s va kind' mode' i a)

/-- What `(e, t)` makes of a PTE at each level (20_memory.md R103, R101): a leaf wherever `e = 1`, whatever
`t`; a pointer to the table at `ppn x PAGE_SIZE` above level 0 where `e = 0, t = 1`; an address error
otherwise. -/
def Obligations.PteKindsByLevel : Prop :=
  ∀ (s : State) (va : Word) (kind : AccessKind) (mode : Bool) (i a : Nat) (pte : Pte),
    let p := Paging.of s.status.s64
    readPte s (pteAddress s va i a) = .ok pte →
    (pte.e = true → pte.allows kind mode = true →
      walkEntry s va kind mode i a = .leaf (p.leafAddress pte va i)) ∧
    (pte.e = false → pte.t = true → 0 < i →
      walkEntry s va kind mode i a = .table (pte.ppn * p.pageSize)) ∧
    (pte.e = false → pte.t = false ∨ i = 0 → walkEntry s va kind mode i a = .error)

/-- The whole RV32S translation (20_memory.md R89, R90, R96, R101): the root PTE at `ptbr + vpn[1] x 4`,
either a 4 MB leaf or a pointer to the table whose PTE at `vpn[0] x 4` must be a leaf; every failure is
the access fault of the kind. -/
def Obligations.Rv32sTwoLevelWalk : Prop :=
  ∀ (s : State) (va : Word) (kind : AccessKind) (mode : Bool) (root : Pte),
    s.status.s64 = false → s.status.vm = true → s.ptbr.toNat % 4096 = 0 →
    readPte s (s.ptbr.toNat + va.toNat / 2 ^ 22 % 1024 * 4) = .ok root →
    translateAddr s va kind mode =
      if root.e then
        if root.allows kind mode then .ok (root.ppn / 1024 * 2 ^ 22 + va.toNat % 2 ^ 22)
        else .trap (accessFault kind) va
      else if ! root.t then .trap (accessFault kind) va
      else
        match readPte s (root.ppn * 4096 + va.toNat / 2 ^ 12 % 1024 * 4) with
        | .error r => .refused r
        | .ok leaf =>
          if leaf.e && leaf.allows kind mode then .ok (leaf.ppn * 4096 + va.toNat % 4096)
          else .trap (accessFault kind) va

/-- The whole RV64S translation of a canonical address (20_memory.md R91, R92, R96, R101): PTEs of 8 bytes
at `vpn[2]`, `vpn[1]`, `vpn[0]` of tables of 8 KB, a leaf at each level mapping 8 GB, 8 MB or 8 KB. -/
def Obligations.Rv64sThreeLevelWalk : Prop :=
  ∀ (s : State) (va : Word) (kind : AccessKind) (mode : Bool) (root : Pte),
    s.status.s64 = true → s.status.vm = true → canonical va = true → s.ptbr.toNat % 8192 = 0 →
    readPte s (s.ptbr.toNat + va.toNat / 2 ^ 33 % 1024 * 8) = .ok root →
    (root.e = true → translateAddr s va kind mode =
      if root.allows kind mode then .ok (root.ppn / 2 ^ 20 * 2 ^ 33 + va.toNat % 2 ^ 33)
      else .trap (accessFault kind) va) ∧
    (root.e = false → root.t = false → translateAddr s va kind mode = .trap (accessFault kind) va) ∧
    (root.e = false → root.t = true → ∀ middle,
      readPte s (root.ppn * 8192 + va.toNat / 2 ^ 23 % 1024 * 8) = .ok middle →
      (middle.e = true → translateAddr s va kind mode =
        if middle.allows kind mode then .ok (middle.ppn / 1024 * 2 ^ 23 + va.toNat % 2 ^ 23)
        else .trap (accessFault kind) va) ∧
      (middle.e = false → middle.t = false →
        translateAddr s va kind mode = .trap (accessFault kind) va) ∧
      (middle.e = false → middle.t = true → ∀ leaf,
        readPte s (middle.ppn * 8192 + va.toNat / 2 ^ 13 % 1024 * 8) = .ok leaf →
        translateAddr s va kind mode =
          if leaf.e && leaf.allows kind mode then .ok (leaf.ppn * 8192 + va.toNat % 8192)
          else .trap (accessFault kind) va))

/-- The parts of a leaf's physical address (20_memory.md R96 step 3, R101): the page offset is the virtual
one, `ppn[j]` is `vpn[j]` below the leaf's level and the PTE's `ppn[j]` from it up. -/
def Obligations.LeafAddressParts : Prop :=
  ∀ (rv64s : Bool) (pte : Pte) (va : Word) (i : Nat),
    let p := Paging.of rv64s
    let pa := p.leafAddress pte va i
    i < p.levels →
    pa % p.pageSize = va.toNat % p.pageSize ∧
    (∀ j, j < p.levels - 1 → pa / 2 ^ (p.pgoffBits + 10 * j) % 1024 =
      if j < i then p.vpn va j else pte.ppn / 2 ^ (10 * j) % 1024) ∧
    pa / 2 ^ (p.pgoffBits + 10 * (p.levels - 1)) = pte.ppn / 2 ^ (10 * (p.levels - 1))

/-- Translation raises nothing but the access fault of the kind of access, with the address asked for
(20_memory.md R99, decision D4, log 13). -/
def Obligations.TranslationTrapsAreAccessFaults : Prop :=
  ∀ (s : State) (va : Word) (kind : AccessKind) (mode : Bool) (c : Cause) (a : Word),
    translateAddr s va kind mode = .trap c a → c = accessFault kind ∧ a = va

/-- A translated address is in the physical space of the variant: 32 bits in RV32S, 64 in RV64S
(20_memory.md R80, R90, R92). -/
def Obligations.PhysicalAddressInRange : Prop :=
  ∀ (s : State) (va : Word) (kind : AccessKind) (mode : Bool) (pa : Nat),
    translateAddr s va kind mode = .ok pa →
    (s.status.s64 = true → pa < 2 ^ 64) ∧
    (s.status.s64 = false → va.toNat < 2 ^ 32 → pa < 2 ^ 32)

/-- A walk with `ptbr` not page-aligned is refused, and so is an access outside `PMEM`: a load, a store,
a fetch, a PTE read (20_memory.md R82, R97, decisions D6, D14, logs 29, 30). -/
def Obligations.MisalignedRootAndAbsentMemoryRefused : Prop :=
  (∀ (s : State) (va : Word) (kind : AccessKind) (mode : Bool), s.status.vm = true →
    s.status.s64 = false ∨ canonical va = true →
    s.ptbr.toNat % (Paging.of s.status.s64).pageSize ≠ 0 →
    translateAddr s va kind mode = .refused .misalignedPtbr) ∧
  (∀ (s : State) (va : Word) (w : Width) (pa : Nat), va.toNat % w.bytes = 0 →
    physPresent s.conf pa w.bytes = false →
    (translateAddr s va .load s.status.s = .ok pa → memRead s va w = .refused .absentMemory) ∧
    (translateAddr s va .store s.status.s = .ok pa → ∀ v, memWrite s va w v = .refused .absentMemory)) ∧
  (∀ (s : State) (pa : Nat), s.pc.toNat % 4 = 0 → physPresent s.conf pa 4 = false →
    translateAddr s s.pc .fetch s.status.s = .ok pa →
    fetch s = .refused .absentMemory ∧ ∀ isa, execAtPc isa s = .refused .absentMemory) ∧
  (∀ (s : State) (a : Nat), physPresent s.conf a (Paging.of s.status.s64).pteSize = false →
    readPte s a = .error .absentMemory)

/-- Equal memories are equal data: two memories in canonical form with the same byte at every address are
one list (20_memory.md R82; the form is the model's, log 6). -/
def Obligations.CanonicalMemoryIsUnique : Prop :=
  ∀ m m' : Memory, m.Wf → m'.Wf → (∀ a, m.readByte a = m'.readByte a) → m = m'

/-- A load from where a store of the same width has gone gives the stored bytes (20_memory.md R84, R85,
R110), wherever the two accesses reach one physical address. -/
def Obligations.StoreThenLoad : Prop :=
  ∀ (s t : State) (va va' : Word) (w : Width) (v : Word), s.mem.Wf →
    memWrite s va w v = .ok t → va'.toNat % w.bytes = 0 →
    translateAddr t va' .load t.status.s = translateAddr s va .store s.status.s →
    memRead t va' w = .ok (v &&& BitVec.ofNat 64 (2 ^ (8 * w.bytes) - 1))

/-- A store writes byte `k` of the value at its physical address + `k`, little-endian, leaves every other
byte of memory and every register (20_memory.md R85, 41_base_isa_interface.md R196; the byte order is
decision D1, log 10). -/
def Obligations.StoreFrame : Prop :=
  ∀ (s t : State) (va : Word) (w : Width) (v : Word) (pa : Nat), s.mem.Wf →
    memWrite s va w v = .ok t → translateAddr s va .store s.status.s = .ok pa →
    (∀ k, k < w.bytes → t.mem.readByte (pa + k) = v.extractLsb' (8 * k) 8) ∧
    (∀ a, ¬ (pa ≤ a ∧ a < pa + w.bytes) → t.mem.readByte a = s.mem.readByte a) ∧
    t = { s with mem := t.mem, storedBytes := t.storedBytes, storedUnderVm := t.storedUnderVm }

/-! ## The base-ISA classes -/

/-- A load or store at an address that is not a multiple of its size raises code 8 or 9 with that
address, before any translation, whatever the page table (20_memory.md R87, 41_base_isa_interface.md
R195, R196, decision D3, log 12). -/
def Obligations.MisalignedDataAccessTraps : Prop :=
  ∀ (isa : BaseIsa) (w : BitVec 32) (n : Width) (s : State),
    (baseAddress isa w s).toNat % n.bytes ≠ 0 →
    execBase isa w (.load n) s =
      .next (takeException .loadMisaligned s.pc (baseAddress isa w s) s) ∧
    execBase isa w (.store n) s =
      .next (takeException .storeMisaligned s.pc (baseAddress isa w s) s)

/-- The loads and stores of the base ISA (41_base_isa_interface.md R195, R196). An aligned access whose
translation traps raises code 10 or 11 with that address (20_memory.md R99); any trap enters the
handler with the instruction's own address in `epc`, and a store that traps writes no byte. A granted
access completes with what `BASE_ISA` gives, computed from the bytes loaded, and changes nothing else
but what the store writes (`StoreFrame`); where its next `pc` leaves the register, see
`UnmodelledSituationsRefused` (10_state.md R26, log 15). -/
def Obligations.LoadsAndStoresCompleteOrTrap : Prop :=
  ∀ (isa : BaseIsa) (w : BitVec 32) (n : Width) (s : State),
    let va := baseAddress isa w s
    let v := isa.storeData s.rv64InForce w s.userView
    (∀ pa, va.toNat % n.bytes = 0 → translateAddr s va .load s.status.s = .ok pa →
      physPresent s.conf pa n.bytes = true →
      let e := baseEffect isa w s (s.mem.readLE pa n.bytes)
      s.CanGoTo e.pc → ∃ t, execBase isa w (.load n) s = .next t ∧ s.CompletesAs e t) ∧
    (∀ pa, va.toNat % n.bytes = 0 → translateAddr s va .store s.status.s = .ok pa →
      physPresent s.conf pa n.bytes = true →
      let e := baseEffect isa w s 0
      s.CanGoTo e.pc → ∃ m t, memWrite s va n v = .ok m ∧ execBase isa w (.store n) s = .next t ∧
        m.CompletesAs e t) ∧
    (∀ c a, va.toNat % n.bytes = 0 → translateAddr s va .load s.status.s = .trap c a →
      ∃ t, execBase isa w (.load n) s = .next t ∧ t = takeException .loadAccessFault s.pc va s ∧
        (s.status.et = true → t.cause = 10 ∧ t.badvaddr = va)) ∧
    (∀ c a, va.toNat % n.bytes = 0 → translateAddr s va .store s.status.s = .trap c a →
      ∃ t, execBase isa w (.store n) s = .next t ∧ t = takeException .storeAccessFault s.pc va s ∧
        (s.status.et = true → t.cause = 11 ∧ t.badvaddr = va)) ∧
    (∀ c a, memRead s va n = .trap c a →
      execBase isa w (.load n) s = .next (takeException c s.pc a s)) ∧
    (∀ c a, memWrite s va n v = .trap c a →
      execBase isa w (.store n) s = .next (takeException c s.pc a s) ∧
      (takeException c s.pc a s).mem = s.mem)

/-- A system call (41_base_isa_interface.md R193) raises code 6 in either mode with `epc` its own address
and writes no register itself; with `ET = 0` it enters error mode; `eret` goes back to it. -/
def Obligations.SystemCallTraps : Prop :=
  ∀ (isa : BaseIsa) (w : BitVec 32) (s : State),
    (s.status.et = true → ∃ t, execBase isa w .systemCall s = .next t ∧ t.cause = 6 ∧
      t.epc = s.pc ∧ t.status.ps = s.status.s ∧ t.status.s = true ∧ t.status.et = false ∧
      t.pc = s.evec ∧ t.x = s.x ∧ (∃ r, exec .eret t = .next r ∧ r.pc = s.pc)) ∧
    (s.status.et = false → ∃ t, execBase isa w .systemCall s = .next t ∧ t.errmode = true ∧
      t.x = s.x)

/-- A breakpoint (41_base_isa_interface.md R194) raises code 7 with `epc` its own address, and otherwise
does as a system call does. -/
def Obligations.BreakpointTraps : Prop :=
  ∀ (isa : BaseIsa) (w : BitVec 32) (s : State),
    (s.status.et = true → ∃ t, execBase isa w .breakpoint s = .next t ∧ t.cause = 7 ∧
      t.epc = s.pc ∧ t.status.ps = s.status.s ∧ t.status.s = true ∧ t.status.et = false ∧
      t.pc = s.evec ∧ t.x = s.x ∧ (∃ r, exec .eret t = .next r ∧ r.pc = s.pc)) ∧
    (s.status.et = false → ∃ t, execBase isa w .breakpoint s = .next t ∧ t.errmode = true ∧
      t.x = s.x)

/-- A floating-point instruction with `EF = 0` raises code 4 in either mode, before any access it makes;
with `EF = 1` it runs: as a load or a store where it makes an access, and otherwise to what `BASE_ISA`
gives (41_base_isa_interface.md R192; its class is `DECODE`'s, decision D10; a next `pc` that leaves the
register is 10_state.md R26, log 15). -/
def Obligations.FloatingPointDisabled : Prop :=
  ∀ (isa : BaseIsa) (w : BitVec 32) (access : Option (DataKind × Width)) (s : State),
    (s.status.ef = false → execBase isa w (.floatingPoint access) s =
      .next (takeException .fpDisabled s.pc 0 s)) ∧
    (s.status.ef = true → access = none →
      execBase isa w (.floatingPoint access) s = execBase isa w .other s ∧
      (s.CanGoTo (baseEffect isa w s 0).pc → ∃ t,
        execBase isa w (.floatingPoint access) s = .next t ∧
        s.CompletesAs (baseEffect isa w s 0) t)) ∧
    (s.status.ef = true → ∀ n, access = some (.load, n) →
      execBase isa w (.floatingPoint access) s = execBase isa w (.load n) s) ∧
    (s.status.ef = true → ∀ n, access = some (.store, n) →
      execBase isa w (.floatingPoint access) s = execBase isa w (.store n) s)

/-- A base instruction of any class changes a control register only by raising an exception
(41_base_isa_interface.md R190), and never the registers an exception does not write. One of class `Other`
(R197) completes with what `BASE_ISA` gives and leaves memory and every other register as they were;
where its next `pc` leaves the register, see `UnmodelledSituationsRefused` (10_state.md R26, log 15). -/
def Obligations.BaseInstructionsLeaveControlRegisters : Prop :=
  (∀ (isa : BaseIsa) (w : BitVec 32) (c : BaseClass) (s t : State),
    execBase isa w c s = .next t →
    t.evec = s.evec ∧ t.count = s.count ∧ t.compare = s.compare ∧ t.ptbr = s.ptbr ∧
    t.k0 = s.k0 ∧ t.k1 = s.k1 ∧ t.tohost = s.tohost ∧ t.fromhost = s.fromhost ∧
    t.output = s.output ∧ t.ip = s.ip ∧
    ((t.status = s.status ∧ t.epc = s.epc ∧ t.badvaddr = s.badvaddr ∧ t.cause = s.cause ∧
        t.errmode = s.errmode) ∨
      ∃ e va, t = takeException e s.pc va s)) ∧
  (∀ (isa : BaseIsa) (w : BitVec 32) (s : State), s.CanGoTo (baseEffect isa w s 0).pc →
    ∃ t, execBase isa w .other s = .next t ∧ s.CompletesAs (baseEffect isa w s 0) t)

/-! ## The instruction step -/

/-- A fetch at a `pc` that is no multiple of 4 raises code 0, before translation; a fetch whose
translation traps raises code 1; in both `epc` is the faulting `pc` (20_memory.md R86, R99,
60_exceptions.md R237, decisions D2, D4). -/
def Obligations.FetchTraps : Prop :=
  ∀ (isa : Isa) (s : State),
    (s.pc.toNat % 4 ≠ 0 →
      execAtPc isa s = .next (takeException .instrMisaligned s.pc s.pc s)) ∧
    (∀ c a, s.pc.toNat % 4 = 0 → translateAddr s s.pc .fetch s.status.s = .trap c a →
      execAtPc isa s = .next (takeException .instrAccessFault s.pc s.pc s))

/-- A word that `DECODE` makes illegal raises code 2 in either mode with `epc` its address, and nothing
changes but what exception entry changes (30_encoding.md R146). -/
def Obligations.IllegalWordTraps : Prop :=
  ∀ (isa : Isa) (s : State) (w : BitVec 32), fetch s = .ok w →
    isa.decode s.rv64InForce w = .illegal →
    execAtPc isa s = .next (takeException .illegalInstr s.pc 0 s) ∧
    (s.status.et = true → ∃ t, execAtPc isa s = .next t ∧ t.cause = 2 ∧ t.epc = s.pc ∧
      t = { s with epc := t.epc, cause := t.cause, badvaddr := t.badvaddr, draws := t.draws,
                   status := { s.status with ps := s.status.s, s := true, et := false },
                   pc := s.evec })

/-- Where the word at the `pc` decodes to an instruction and the processor is the next to move, the step
is that instruction's `exec`: of the state with the agenda's head taken, and with an empty agenda of
the state after one tick of the clock (60_exceptions.md R237, log 21). -/
def Obligations.StepRunsDecodedInstruction : Prop :=
  ∀ (s : State) (w : BitVec 32) (i : Instr) (rest : List Event),
    s.errmode = false → s.mixedWidth = false → fetch s = .ok w → decodeWord w = some i →
    (s.agenda = .defer :: rest → step s = exec i { s with agenda := rest }) ∧
    (s.agenda = .run :: rest → s.leastQualifying = none →
      step s = exec i { s with agenda := rest }) ∧
    (s.agenda = [] → (tick s).leastQualifying = none → step s = exec i (tick s))

/-- An instruction placed where the next fetch reads is the one the very next step runs, with `VM = 0`
(20_memory.md R106, log 38). -/
def Obligations.PlacedInstructionRuns : Prop :=
  ∀ (s : State) (i : Instr), i.wellFormed = true → s.mem.Wf → s.errmode = false →
    s.mixedWidth = false → s.status.vm = false → s.pc.toNat % 4 = 0 →
    s.status.s64 = false ∨ canonical s.pc = true →
    physPresent s.conf s.pc.toNat 4 = true →
    let t := s.withFetchWord 32 (encodeWord i).toNat
    step t = exec i { t with agenda := s.agenda }

/-- Where the spec gives no meaning and the model stops by name: a fetch of a byte stored to since reset
without `IFETCH_COHERENT`, a PTE read over a byte stored to or after `ptbr` was written while `VM = 1`
without `TLB_COHERENT`, the RV32 ISA in force on a 64-bit implementation, and, unless `pcWrap` says
otherwise, an instruction that would wrap the `pc`: `mfpcr` and `mtpcr` of every control register and
every class of base instruction that completes; and every store is recorded (20_memory.md R113, R114,
10_state.md R26, decisions D5, D24, logs 15, 27, 28). -/
def Obligations.UnmodelledSituationsRefused : Prop :=
  (∀ (s : State) (pa k : Nat), s.pc.toNat % 4 = 0 →
    translateAddr s s.pc .fetch s.status.s = .ok pa → physPresent s.conf pa 4 = true →
    s.conf.ifetchCoherent = false → k < 4 → pa + k ∈ s.storedBytes →
    fetch s = .refused .incoherentFetch) ∧
  (∀ (s : State) (a k : Nat), physPresent s.conf a (Paging.of s.status.s64).pteSize = true →
    s.conf.tlbCoherent = false →
    s.ptbrUnderVm = true ∨ (k < (Paging.of s.status.s64).pteSize ∧ a + k ∈ s.storedUnderVm) →
    readPte s a = .error .incoherentWalk) ∧
  (∀ (s t : State) (va : Word) (w : Width) (v : Word) (pa k : Nat), memWrite s va w v = .ok t →
    translateAddr s va .store s.status.s = .ok pa → k < w.bytes →
    pa + k ∈ t.storedBytes ∧ (s.status.vm = true → pa + k ∈ t.storedUnderVm)) ∧
  (∀ (isa : Isa) (b : Bool) (s : State), s.errmode = false → s.conf.providesRv64 = true →
    (if s.status.s then s.status.s64 else s.status.u64) = false →
    cpuMove isa b s = .refused .mixedWidth) ∧
  (∀ (s : State) (x : RegIdx) (cr : Pcr), s.status.s = true → s.conf.pcWrap = .refuse →
    2 ^ s.conf.xlen ≤ s.pc.toNat + 4 →
    Pcr.isUnused cr = false ∨ s.conf.unusedPcr = .readZeroIgnoreWrite →
    exec (.mfpcr x cr) s = .refused .pcWrap ∧
    (¬ (Pcr.isReadOnly cr = true ∧ s.conf.roWrite = .refuse) →
      exec (.mtpcr x cr) s = .refused .pcWrap)) ∧
  (∀ (isa : BaseIsa) (w : BitVec 32) (s : State), s.conf.pcWrap = .refuse →
    let leaves (e : BaseEffect) : Prop := e.pc < 0 ∨ ((2 ^ s.conf.xlen : Nat) : Int) ≤ e.pc
    let va := baseAddress isa w s
    (leaves (baseEffect isa w s 0) → execBase isa w .other s = .refused .pcWrap) ∧
    (∀ n loaded, memRead s va n = .ok loaded → leaves (baseEffect isa w s loaded) →
      execBase isa w (.load n) s = .refused .pcWrap) ∧
    (∀ n m, memWrite s va n (isa.storeData s.rv64InForce w s.userView) = .ok m →
      leaves (baseEffect isa w s 0) → execBase isa w (.store n) s = .refused .pcWrap))

/-! ## The whole machine -/

/-- The `pc` is changed by these events and no other: reset sets it to `0x2000`, an exception to `evec`,
`eret` to `epc`, a completed `mfpcr` or `mtpcr` to `pc + 4`, and a completed base instruction to what
`BASE_ISA` gives (10_state.md R24); in error mode it is undefined (log 20). -/
def Obligations.PcChangedOnlyByListedEvents : Prop :=
  ∀ (isa : Isa) (s t : State), s.errmode = false → stepWith isa s = .next t → t.errmode = false →
    t.pc ≠ s.pc →
    ((∃ u rest, s.agenda = .reset u :: rest) ∧ t.pc = 0x2000) ∨
    (s.status.et = true ∧ t.pc = s.evec ∧ t.epc = s.pc ∧ t.status.et = false ∧
      t.status.s = true ∧ t.status.ps = s.status.s) ∨
    (∃ w i, fetch s = .ok w ∧ isa.privileged w = some i ∧ s.status.s = true ∧
      t.pc = if i = .eret then s.epc else s.conf.fit (s.pc + 4)) ∨
    (∃ w c loaded, fetch s = .ok w ∧ isa.decode s.rv64InForce w = .base c ∧ c ≠ .systemCall ∧
      c ≠ .breakpoint ∧ t.pc = s.conf.fit (BitVec.ofInt 64 (baseEffect isa.base w s loaded).pc) ∧
      t.status = s.status ∧ t.epc = s.epc ∧ t.cause = s.cause)

/-- Every step keeps the invariant (10_state.md R20, R21, R43, R48, 60_exceptions.md R230; the canonical
memory form is the model's, log 6) and the implementation, for every `DECODE` and `BASE_ISA`. -/
def Obligations.StepKeepsInvariant : Prop :=
  (∀ (isa : Isa) (s t : State), s.Inv → stepWith isa s = .next t → t.Inv ∧ t.conf = s.conf) ∧
  (∀ s t : State, s.Inv → step s = .next t → t.Inv ∧ t.conf = s.conf)

/-- Reset, on every implementation and with every choice of the undefined values, establishes the
invariant; `State.reset` is one such state (10_state.md R62, log 4). -/
def Obligations.ResetEstablishesInvariant : Prop :=
  State.reset = resetWith .default .zero ∧ State.reset.Inv ∧
  ∀ (c : Config) (u : UndefinedAtReset) (agenda : List Event) (draws : Nat),
    ({ resetWith c u with agenda := agenda, draws := draws } : State).Inv

/-- What reset leaves (10_state.md R62): `pc = 0x2000`, `ET = 0`, `S = 1` (90_conflicts.md C5, log 5),
`VM = 0`, `S64` by the variant, `U64` and `EF` at their hard-wired values, `tohost = 0`, not in error
mode, `x0 = 0`; and every register the spec leaves undefined may hold any value of its width. -/
def Obligations.ResetLeaves : Prop :=
  ∀ (c : Config) (u : UndefinedAtReset),
    let s := resetWith c u
    s.pc = 0x2000 ∧ s.status.et = false ∧ s.status.s = true ∧ s.status.vm = false ∧
    s.status.s64 = c.providesRv64 ∧ s.tohost = 0 ∧ s.errmode = false ∧ s.readX 0 = 0 ∧
    (c.providesRv64 = false → s.status.u64 = false) ∧
    (c.providesRv64 = true → c.hasRv32User = false → s.status.u64 = true) ∧
    (c.providesRv64 = true → c.hasRv32User = true → s.status.u64 = u.u64) ∧
    (c.hasFpu = false → s.status.ef = false) ∧ (c.hasFpu = true → s.status.ef = u.ef) ∧
    s.status.ps = u.ps ∧ s.status.im = u.im ∧
    (∀ i : RegIdx, i ≠ 0 → s.readX i = c.fit u.x[i]) ∧
    s.epc = c.fit u.epc ∧ s.badvaddr = c.fit u.badvaddr ∧ s.evec = c.fit (u.evec &&& ~~~3#64) ∧
    s.count = u.count ∧ s.compare = u.compare ∧ s.cause = u.cause ∧ s.ptbr = c.fit u.ptbr ∧
    s.k0 = c.fit u.k0 ∧ s.k1 = c.fit u.k1 ∧ s.fromhost = c.fit u.fromhost ∧ s.timerIp = u.timerIp

/-- In every reachable state `S64 = 0` implies `U64 = 0`, and hard-wired fields hold their hard-wired
values (10_state.md R43), for every `DECODE` and `BASE_ISA`. -/
def Obligations.StatusLegalWhenReachable : Prop :=
  ∀ (isa : Isa) (s : State), Reachable isa s →
    (s.status.s64 = false → s.status.u64 = false) ∧
    (s.conf.variant = .rv32sOnly → s.status.s64 = false ∧ s.status.u64 = false) ∧
    (s.conf.variant = .rv64sOnly → s.status.s64 = true) ∧
    (s.conf.hasRv32User = false → s.status.s64 = true → s.status.u64 = true) ∧
    (s.conf.hasFpu = false → s.status.ef = false)

/-- A step goes from user to supervisor mode only by taking an exception, which needs `ET = 1` and lands
at `evec` with `PS` = user, or by reset; in error mode `status` is undefined (60_exceptions.md R251). -/
def Obligations.SupervisorEnteredOnlyByException : Prop :=
  ∀ (isa : Isa) (s t : State), s.status.s = false → stepWith isa s = .next t →
    t.status.s = true → t.errmode = false →
    (∃ u rest, s.agenda = .reset u :: rest) ∨
    (s.status.et = true ∧ t.pc = s.evec ∧ t.epc = s.pc ∧ t.status.et = false ∧
      t.status.ps = false ∧ t.cause.toNat ≤ 23)

/-- In user mode no processor move changes a control register but by taking an exception, and no move
changes the registers an exception does not write (60_exceptions.md R250, 10_state.md R29). -/
def Obligations.UserModeCannotWriteControlRegisters : Prop :=
  ∀ (isa : Isa) (b : Bool) (s t : State), s.status.s = false → cpuMove isa b s = .next t →
    t.evec = s.evec ∧ t.count = s.count ∧ t.compare = s.compare ∧ t.ptbr = s.ptbr ∧
    t.k0 = s.k0 ∧ t.k1 = s.k1 ∧ t.tohost = s.tohost ∧ t.fromhost = s.fromhost ∧
    t.output = s.output ∧ t.ip = s.ip ∧
    ((t.status = s.status ∧ t.epc = s.epc ∧ t.badvaddr = s.badvaddr ∧ t.cause = s.cause ∧
        t.errmode = false) ∨
      ∃ e va, t = takeException e s.pc va s)

/-- What user mode cannot learn: two states that differ in `k0`, `k1`, `tohost`, `fromhost`, `count` and
`compare` alone make the same processor move, and differ in those alone after it (60_exceptions.md R250,
10_state.md R29). -/
def Obligations.ControlRegistersInvisibleToUser : Prop :=
  ∀ (isa : Isa) (b : Bool) (s : State) (k0 k1 tohost fromhost : Word) (count compare : BitVec 32),
    s.status.s = false →
    let hide (r : State) : State :=
      { r with k0 := k0, k1 := k1, tohost := tohost, fromhost := fromhost, count := count,
               compare := compare }
    cpuMove isa b (hide s) =
      match cpuMove isa b s with
      | .next t => .next (hide t)
      | .fault f => .fault f
      | .refused r => .refused r
end

