-- ==== Sys2Proof/Laws/State.lean ====
section
/-! SUPPORT. What each named update of the state leaves in each field, so that no proof unfolds a record
update. -/

namespace Sys2Proof.Machine

/-! `draw` advances the count of free values and nothing else. -/

@[simp] theorem draw_conf (s : State) :
    s.draw.2.conf = s.conf := rfl
@[simp] theorem draw_x (s : State) :
    s.draw.2.x = s.x := rfl
@[simp] theorem draw_pc (s : State) :
    s.draw.2.pc = s.pc := rfl
@[simp] theorem draw_status (s : State) :
    s.draw.2.status = s.status := rfl
@[simp] theorem draw_epc (s : State) :
    s.draw.2.epc = s.epc := rfl
@[simp] theorem draw_badvaddr (s : State) :
    s.draw.2.badvaddr = s.badvaddr := rfl
@[simp] theorem draw_evec (s : State) :
    s.draw.2.evec = s.evec := rfl
@[simp] theorem draw_count (s : State) :
    s.draw.2.count = s.count := rfl
@[simp] theorem draw_compare (s : State) :
    s.draw.2.compare = s.compare := rfl
@[simp] theorem draw_cause (s : State) :
    s.draw.2.cause = s.cause := rfl
@[simp] theorem draw_ptbr (s : State) :
    s.draw.2.ptbr = s.ptbr := rfl
@[simp] theorem draw_k0 (s : State) :
    s.draw.2.k0 = s.k0 := rfl
@[simp] theorem draw_k1 (s : State) :
    s.draw.2.k1 = s.k1 := rfl
@[simp] theorem draw_tohost (s : State) :
    s.draw.2.tohost = s.tohost := rfl
@[simp] theorem draw_fromhost (s : State) :
    s.draw.2.fromhost = s.fromhost := rfl
@[simp] theorem draw_timerIp (s : State) :
    s.draw.2.timerIp = s.timerIp := rfl
@[simp] theorem draw_lines (s : State) :
    s.draw.2.lines = s.lines := rfl
@[simp] theorem draw_errmode (s : State) :
    s.draw.2.errmode = s.errmode := rfl
@[simp] theorem draw_fp (s : State) :
    s.draw.2.fp = s.fp := rfl
@[simp] theorem draw_mem (s : State) :
    s.draw.2.mem = s.mem := rfl
@[simp] theorem draw_output (s : State) :
    s.draw.2.output = s.output := rfl
@[simp] theorem draw_agenda (s : State) :
    s.draw.2.agenda = s.agenda := rfl
@[simp] theorem draw_draws (s : State) :
    s.draw.2.draws = s.draws + 1 := rfl
@[simp] theorem draw_storedBytes (s : State) :
    s.draw.2.storedBytes = s.storedBytes := rfl
@[simp] theorem draw_storedUnderVm (s : State) :
    s.draw.2.storedUnderVm = s.storedUnderVm := rfl
@[simp] theorem draw_ptbrUnderVm (s : State) :
    s.draw.2.ptbrUnderVm = s.ptbrUnderVm := rfl

/-! The clock moves `count` and the timer request, nothing else (60_exceptions.md R260). -/

@[simp] theorem tick_conf (s : State) :
    (tick s).conf = s.conf := rfl
@[simp] theorem tick_x (s : State) :
    (tick s).x = s.x := rfl
@[simp] theorem tick_pc (s : State) :
    (tick s).pc = s.pc := rfl
@[simp] theorem tick_status (s : State) :
    (tick s).status = s.status := rfl
@[simp] theorem tick_epc (s : State) :
    (tick s).epc = s.epc := rfl
@[simp] theorem tick_badvaddr (s : State) :
    (tick s).badvaddr = s.badvaddr := rfl
@[simp] theorem tick_evec (s : State) :
    (tick s).evec = s.evec := rfl
@[simp] theorem tick_count (s : State) :
    (tick s).count = s.count + 1 := rfl
@[simp] theorem tick_compare (s : State) :
    (tick s).compare = s.compare := rfl
@[simp] theorem tick_cause (s : State) :
    (tick s).cause = s.cause := rfl
@[simp] theorem tick_ptbr (s : State) :
    (tick s).ptbr = s.ptbr := rfl
@[simp] theorem tick_k0 (s : State) :
    (tick s).k0 = s.k0 := rfl
@[simp] theorem tick_k1 (s : State) :
    (tick s).k1 = s.k1 := rfl
@[simp] theorem tick_tohost (s : State) :
    (tick s).tohost = s.tohost := rfl
@[simp] theorem tick_fromhost (s : State) :
    (tick s).fromhost = s.fromhost := rfl
@[simp] theorem tick_timerIp (s : State) :
    (tick s).timerIp = (s.timerIp || s.count + 1 == s.compare) := rfl
@[simp] theorem tick_lines (s : State) :
    (tick s).lines = s.lines := rfl
@[simp] theorem tick_errmode (s : State) :
    (tick s).errmode = s.errmode := rfl
@[simp] theorem tick_fp (s : State) :
    (tick s).fp = s.fp := rfl
@[simp] theorem tick_mem (s : State) :
    (tick s).mem = s.mem := rfl
@[simp] theorem tick_output (s : State) :
    (tick s).output = s.output := rfl
@[simp] theorem tick_agenda (s : State) :
    (tick s).agenda = s.agenda := rfl
@[simp] theorem tick_draws (s : State) :
    (tick s).draws = s.draws := rfl
@[simp] theorem tick_storedBytes (s : State) :
    (tick s).storedBytes = s.storedBytes := rfl
@[simp] theorem tick_storedUnderVm (s : State) :
    (tick s).storedUnderVm = s.storedUnderVm := rfl
@[simp] theorem tick_ptbrUnderVm (s : State) :
    (tick s).ptbrUnderVm = s.ptbrUnderVm := rfl

/-! Error mode (60_exceptions.md R243). -/

@[simp] theorem enterErrorMode_conf (s : State) :
    (enterErrorMode s).conf = s.conf := rfl
@[simp] theorem enterErrorMode_x (s : State) :
    (enterErrorMode s).x = s.x := rfl
@[simp] theorem enterErrorMode_pc (s : State) :
    (enterErrorMode s).pc = s.conf.fit (Config.freeWord (s.draws + 4)) := rfl
@[simp] theorem enterErrorMode_status (s : State) :
    (enterErrorMode s).status = statusOfWord s.conf (low32 (Config.freeWord s.draws)) := rfl
@[simp] theorem enterErrorMode_epc (s : State) :
    (enterErrorMode s).epc = s.conf.fit (Config.freeWord (s.draws + 1)) := rfl
@[simp] theorem enterErrorMode_badvaddr (s : State) :
    (enterErrorMode s).badvaddr = s.conf.fit (Config.freeWord (s.draws + 3)) := rfl
@[simp] theorem enterErrorMode_evec (s : State) :
    (enterErrorMode s).evec = s.evec := rfl
@[simp] theorem enterErrorMode_count (s : State) :
    (enterErrorMode s).count = s.count := rfl
@[simp] theorem enterErrorMode_compare (s : State) :
    (enterErrorMode s).compare = s.compare := rfl
@[simp] theorem enterErrorMode_cause (s : State) :
    (enterErrorMode s).cause = low32 (Config.freeWord (s.draws + 2)) := rfl
@[simp] theorem enterErrorMode_ptbr (s : State) :
    (enterErrorMode s).ptbr = s.ptbr := rfl
@[simp] theorem enterErrorMode_k0 (s : State) :
    (enterErrorMode s).k0 = s.k0 := rfl
@[simp] theorem enterErrorMode_k1 (s : State) :
    (enterErrorMode s).k1 = s.k1 := rfl
@[simp] theorem enterErrorMode_tohost (s : State) :
    (enterErrorMode s).tohost = s.tohost := rfl
@[simp] theorem enterErrorMode_fromhost (s : State) :
    (enterErrorMode s).fromhost = s.fromhost := rfl
@[simp] theorem enterErrorMode_timerIp (s : State) :
    (enterErrorMode s).timerIp = s.timerIp := rfl
@[simp] theorem enterErrorMode_lines (s : State) :
    (enterErrorMode s).lines = s.lines := rfl
@[simp] theorem enterErrorMode_errmode (s : State) :
    (enterErrorMode s).errmode = true := rfl
@[simp] theorem enterErrorMode_fp (s : State) :
    (enterErrorMode s).fp = s.fp := rfl
@[simp] theorem enterErrorMode_mem (s : State) :
    (enterErrorMode s).mem = s.mem := rfl
@[simp] theorem enterErrorMode_output (s : State) :
    (enterErrorMode s).output = s.output := rfl
@[simp] theorem enterErrorMode_agenda (s : State) :
    (enterErrorMode s).agenda = s.agenda := rfl
@[simp] theorem enterErrorMode_draws (s : State) :
    (enterErrorMode s).draws = s.draws + 5 := rfl
@[simp] theorem enterErrorMode_storedBytes (s : State) :
    (enterErrorMode s).storedBytes = s.storedBytes := rfl
@[simp] theorem enterErrorMode_storedUnderVm (s : State) :
    (enterErrorMode s).storedUnderVm = s.storedUnderVm := rfl
@[simp] theorem enterErrorMode_ptbrUnderVm (s : State) :
    (enterErrorMode s).ptbrUnderVm = s.ptbrUnderVm := rfl

/-! Exception entry (60_exceptions.md R240). -/

@[simp] theorem enterHandler_conf (c : Cause) (e va : Word) (s : State) :
    (enterHandler c e va s).conf = s.conf := rfl
@[simp] theorem enterHandler_x (c : Cause) (e va : Word) (s : State) :
    (enterHandler c e va s).x = s.x := rfl
@[simp] theorem enterHandler_pc (c : Cause) (e va : Word) (s : State) :
    (enterHandler c e va s).pc = s.evec := rfl
@[simp] theorem enterHandler_status (c : Cause) (e va : Word) (s : State) :
    (enterHandler c e va s).status = { s.status with ps := s.status.s, s := true, et := false } := rfl
@[simp] theorem enterHandler_epc (c : Cause) (e va : Word) (s : State) :
    (enterHandler c e va s).epc = e := rfl
@[simp] theorem enterHandler_badvaddr (c : Cause) (e va : Word) (s : State) :
    (enterHandler c e va s).badvaddr = (if c.recordsAddress then va else s.conf.fit (Config.freeWord s.draws)) := rfl
@[simp] theorem enterHandler_evec (c : Cause) (e va : Word) (s : State) :
    (enterHandler c e va s).evec = s.evec := rfl
@[simp] theorem enterHandler_count (c : Cause) (e va : Word) (s : State) :
    (enterHandler c e va s).count = s.count := rfl
@[simp] theorem enterHandler_compare (c : Cause) (e va : Word) (s : State) :
    (enterHandler c e va s).compare = s.compare := rfl
@[simp] theorem enterHandler_cause (c : Cause) (e va : Word) (s : State) :
    (enterHandler c e va s).cause = BitVec.ofNat 32 c.code := rfl
@[simp] theorem enterHandler_ptbr (c : Cause) (e va : Word) (s : State) :
    (enterHandler c e va s).ptbr = s.ptbr := rfl
@[simp] theorem enterHandler_k0 (c : Cause) (e va : Word) (s : State) :
    (enterHandler c e va s).k0 = s.k0 := rfl
@[simp] theorem enterHandler_k1 (c : Cause) (e va : Word) (s : State) :
    (enterHandler c e va s).k1 = s.k1 := rfl
@[simp] theorem enterHandler_tohost (c : Cause) (e va : Word) (s : State) :
    (enterHandler c e va s).tohost = s.tohost := rfl
@[simp] theorem enterHandler_fromhost (c : Cause) (e va : Word) (s : State) :
    (enterHandler c e va s).fromhost = s.fromhost := rfl
@[simp] theorem enterHandler_timerIp (c : Cause) (e va : Word) (s : State) :
    (enterHandler c e va s).timerIp = s.timerIp := rfl
@[simp] theorem enterHandler_lines (c : Cause) (e va : Word) (s : State) :
    (enterHandler c e va s).lines = s.lines := rfl
@[simp] theorem enterHandler_errmode (c : Cause) (e va : Word) (s : State) :
    (enterHandler c e va s).errmode = s.errmode := rfl
@[simp] theorem enterHandler_fp (c : Cause) (e va : Word) (s : State) :
    (enterHandler c e va s).fp = s.fp := rfl
@[simp] theorem enterHandler_mem (c : Cause) (e va : Word) (s : State) :
    (enterHandler c e va s).mem = s.mem := rfl
@[simp] theorem enterHandler_output (c : Cause) (e va : Word) (s : State) :
    (enterHandler c e va s).output = s.output := rfl
@[simp] theorem enterHandler_agenda (c : Cause) (e va : Word) (s : State) :
    (enterHandler c e va s).agenda = s.agenda := rfl
@[simp] theorem enterHandler_draws (c : Cause) (e va : Word) (s : State) :
    (enterHandler c e va s).draws = (if c.recordsAddress then s.draws else s.draws + 1) := rfl
@[simp] theorem enterHandler_storedBytes (c : Cause) (e va : Word) (s : State) :
    (enterHandler c e va s).storedBytes = s.storedBytes := rfl
@[simp] theorem enterHandler_storedUnderVm (c : Cause) (e va : Word) (s : State) :
    (enterHandler c e va s).storedUnderVm = s.storedUnderVm := rfl
@[simp] theorem enterHandler_ptbrUnderVm (c : Cause) (e va : Word) (s : State) :
    (enterHandler c e va s).ptbrUnderVm = s.ptbrUnderVm := rfl

/-! The return from an exception (40_privileged.md R177). -/

@[simp] theorem returnFromException_conf (s : State) :
    (returnFromException s).conf = s.conf := rfl
@[simp] theorem returnFromException_x (s : State) :
    (returnFromException s).x = s.x := rfl
@[simp] theorem returnFromException_pc (s : State) :
    (returnFromException s).pc = s.epc := rfl
@[simp] theorem returnFromException_status (s : State) :
    (returnFromException s).status = { s.status with s := s.status.ps, et := true } := rfl
@[simp] theorem returnFromException_epc (s : State) :
    (returnFromException s).epc = s.epc := rfl
@[simp] theorem returnFromException_badvaddr (s : State) :
    (returnFromException s).badvaddr = s.badvaddr := rfl
@[simp] theorem returnFromException_evec (s : State) :
    (returnFromException s).evec = s.evec := rfl
@[simp] theorem returnFromException_count (s : State) :
    (returnFromException s).count = s.count := rfl
@[simp] theorem returnFromException_compare (s : State) :
    (returnFromException s).compare = s.compare := rfl
@[simp] theorem returnFromException_cause (s : State) :
    (returnFromException s).cause = s.cause := rfl
@[simp] theorem returnFromException_ptbr (s : State) :
    (returnFromException s).ptbr = s.ptbr := rfl
@[simp] theorem returnFromException_k0 (s : State) :
    (returnFromException s).k0 = s.k0 := rfl
@[simp] theorem returnFromException_k1 (s : State) :
    (returnFromException s).k1 = s.k1 := rfl
@[simp] theorem returnFromException_tohost (s : State) :
    (returnFromException s).tohost = s.tohost := rfl
@[simp] theorem returnFromException_fromhost (s : State) :
    (returnFromException s).fromhost = s.fromhost := rfl
@[simp] theorem returnFromException_timerIp (s : State) :
    (returnFromException s).timerIp = s.timerIp := rfl
@[simp] theorem returnFromException_lines (s : State) :
    (returnFromException s).lines = s.lines := rfl
@[simp] theorem returnFromException_errmode (s : State) :
    (returnFromException s).errmode = s.errmode := rfl
@[simp] theorem returnFromException_fp (s : State) :
    (returnFromException s).fp = s.fp := rfl
@[simp] theorem returnFromException_mem (s : State) :
    (returnFromException s).mem = s.mem := rfl
@[simp] theorem returnFromException_output (s : State) :
    (returnFromException s).output = s.output := rfl
@[simp] theorem returnFromException_agenda (s : State) :
    (returnFromException s).agenda = s.agenda := rfl
@[simp] theorem returnFromException_draws (s : State) :
    (returnFromException s).draws = s.draws := rfl
@[simp] theorem returnFromException_storedBytes (s : State) :
    (returnFromException s).storedBytes = s.storedBytes := rfl
@[simp] theorem returnFromException_storedUnderVm (s : State) :
    (returnFromException s).storedUnderVm = s.storedUnderVm := rfl
@[simp] theorem returnFromException_ptbrUnderVm (s : State) :
    (returnFromException s).ptbrUnderVm = s.ptbrUnderVm := rfl

/-! Moving the `pc` changes nothing else (00_scope.md R16). -/

@[simp] theorem withPc_conf (s : State) (v : Word) :
    (s.withPc v).conf = s.conf := rfl
@[simp] theorem withPc_x (s : State) (v : Word) :
    (s.withPc v).x = s.x := rfl
@[simp] theorem withPc_pc (s : State) (v : Word) :
    (s.withPc v).pc = v := rfl
@[simp] theorem withPc_status (s : State) (v : Word) :
    (s.withPc v).status = s.status := rfl
@[simp] theorem withPc_epc (s : State) (v : Word) :
    (s.withPc v).epc = s.epc := rfl
@[simp] theorem withPc_badvaddr (s : State) (v : Word) :
    (s.withPc v).badvaddr = s.badvaddr := rfl
@[simp] theorem withPc_evec (s : State) (v : Word) :
    (s.withPc v).evec = s.evec := rfl
@[simp] theorem withPc_count (s : State) (v : Word) :
    (s.withPc v).count = s.count := rfl
@[simp] theorem withPc_compare (s : State) (v : Word) :
    (s.withPc v).compare = s.compare := rfl
@[simp] theorem withPc_cause (s : State) (v : Word) :
    (s.withPc v).cause = s.cause := rfl
@[simp] theorem withPc_ptbr (s : State) (v : Word) :
    (s.withPc v).ptbr = s.ptbr := rfl
@[simp] theorem withPc_k0 (s : State) (v : Word) :
    (s.withPc v).k0 = s.k0 := rfl
@[simp] theorem withPc_k1 (s : State) (v : Word) :
    (s.withPc v).k1 = s.k1 := rfl
@[simp] theorem withPc_tohost (s : State) (v : Word) :
    (s.withPc v).tohost = s.tohost := rfl
@[simp] theorem withPc_fromhost (s : State) (v : Word) :
    (s.withPc v).fromhost = s.fromhost := rfl
@[simp] theorem withPc_timerIp (s : State) (v : Word) :
    (s.withPc v).timerIp = s.timerIp := rfl
@[simp] theorem withPc_lines (s : State) (v : Word) :
    (s.withPc v).lines = s.lines := rfl
@[simp] theorem withPc_errmode (s : State) (v : Word) :
    (s.withPc v).errmode = s.errmode := rfl
@[simp] theorem withPc_fp (s : State) (v : Word) :
    (s.withPc v).fp = s.fp := rfl
@[simp] theorem withPc_mem (s : State) (v : Word) :
    (s.withPc v).mem = s.mem := rfl
@[simp] theorem withPc_output (s : State) (v : Word) :
    (s.withPc v).output = s.output := rfl
@[simp] theorem withPc_agenda (s : State) (v : Word) :
    (s.withPc v).agenda = s.agenda := rfl
@[simp] theorem withPc_draws (s : State) (v : Word) :
    (s.withPc v).draws = s.draws := rfl
@[simp] theorem withPc_storedBytes (s : State) (v : Word) :
    (s.withPc v).storedBytes = s.storedBytes := rfl
@[simp] theorem withPc_storedUnderVm (s : State) (v : Word) :
    (s.withPc v).storedUnderVm = s.storedUnderVm := rfl
@[simp] theorem withPc_ptbrUnderVm (s : State) (v : Word) :
    (s.withPc v).ptbrUnderVm = s.ptbrUnderVm := rfl

/-! A register write changes `x` and nothing else (10_state.md R21). -/

@[simp] theorem writeX_conf (s : State) (i : RegIdx) (v : Word) :
    (s.writeX i v).conf = s.conf := by
  unfold State.writeX; split <;> rfl
@[simp] theorem writeX_pc (s : State) (i : RegIdx) (v : Word) :
    (s.writeX i v).pc = s.pc := by
  unfold State.writeX; split <;> rfl
@[simp] theorem writeX_status (s : State) (i : RegIdx) (v : Word) :
    (s.writeX i v).status = s.status := by
  unfold State.writeX; split <;> rfl
@[simp] theorem writeX_epc (s : State) (i : RegIdx) (v : Word) :
    (s.writeX i v).epc = s.epc := by
  unfold State.writeX; split <;> rfl
@[simp] theorem writeX_badvaddr (s : State) (i : RegIdx) (v : Word) :
    (s.writeX i v).badvaddr = s.badvaddr := by
  unfold State.writeX; split <;> rfl
@[simp] theorem writeX_evec (s : State) (i : RegIdx) (v : Word) :
    (s.writeX i v).evec = s.evec := by
  unfold State.writeX; split <;> rfl
@[simp] theorem writeX_count (s : State) (i : RegIdx) (v : Word) :
    (s.writeX i v).count = s.count := by
  unfold State.writeX; split <;> rfl
@[simp] theorem writeX_compare (s : State) (i : RegIdx) (v : Word) :
    (s.writeX i v).compare = s.compare := by
  unfold State.writeX; split <;> rfl
@[simp] theorem writeX_cause (s : State) (i : RegIdx) (v : Word) :
    (s.writeX i v).cause = s.cause := by
  unfold State.writeX; split <;> rfl
@[simp] theorem writeX_ptbr (s : State) (i : RegIdx) (v : Word) :
    (s.writeX i v).ptbr = s.ptbr := by
  unfold State.writeX; split <;> rfl
@[simp] theorem writeX_k0 (s : State) (i : RegIdx) (v : Word) :
    (s.writeX i v).k0 = s.k0 := by
  unfold State.writeX; split <;> rfl
@[simp] theorem writeX_k1 (s : State) (i : RegIdx) (v : Word) :
    (s.writeX i v).k1 = s.k1 := by
  unfold State.writeX; split <;> rfl
@[simp] theorem writeX_tohost (s : State) (i : RegIdx) (v : Word) :
    (s.writeX i v).tohost = s.tohost := by
  unfold State.writeX; split <;> rfl
@[simp] theorem writeX_fromhost (s : State) (i : RegIdx) (v : Word) :
    (s.writeX i v).fromhost = s.fromhost := by
  unfold State.writeX; split <;> rfl
@[simp] theorem writeX_timerIp (s : State) (i : RegIdx) (v : Word) :
    (s.writeX i v).timerIp = s.timerIp := by
  unfold State.writeX; split <;> rfl
@[simp] theorem writeX_lines (s : State) (i : RegIdx) (v : Word) :
    (s.writeX i v).lines = s.lines := by
  unfold State.writeX; split <;> rfl
@[simp] theorem writeX_errmode (s : State) (i : RegIdx) (v : Word) :
    (s.writeX i v).errmode = s.errmode := by
  unfold State.writeX; split <;> rfl
@[simp] theorem writeX_fp (s : State) (i : RegIdx) (v : Word) :
    (s.writeX i v).fp = s.fp := by
  unfold State.writeX; split <;> rfl
@[simp] theorem writeX_mem (s : State) (i : RegIdx) (v : Word) :
    (s.writeX i v).mem = s.mem := by
  unfold State.writeX; split <;> rfl
@[simp] theorem writeX_output (s : State) (i : RegIdx) (v : Word) :
    (s.writeX i v).output = s.output := by
  unfold State.writeX; split <;> rfl
@[simp] theorem writeX_agenda (s : State) (i : RegIdx) (v : Word) :
    (s.writeX i v).agenda = s.agenda := by
  unfold State.writeX; split <;> rfl
@[simp] theorem writeX_draws (s : State) (i : RegIdx) (v : Word) :
    (s.writeX i v).draws = s.draws := by
  unfold State.writeX; split <;> rfl
@[simp] theorem writeX_storedBytes (s : State) (i : RegIdx) (v : Word) :
    (s.writeX i v).storedBytes = s.storedBytes := by
  unfold State.writeX; split <;> rfl
@[simp] theorem writeX_storedUnderVm (s : State) (i : RegIdx) (v : Word) :
    (s.writeX i v).storedUnderVm = s.storedUnderVm := by
  unfold State.writeX; split <;> rfl
@[simp] theorem writeX_ptbrUnderVm (s : State) (i : RegIdx) (v : Word) :
    (s.writeX i v).ptbrUnderVm = s.ptbrUnderVm := by
  unfold State.writeX; split <;> rfl

/-! A base instruction changes the x registers, `pc` and the floating-point state, nothing else (41_base_isa_interface.md R190). -/

@[simp] theorem withEffect_conf (s : State) (v : BaseEffect) :
    (s.withEffect v).conf = s.conf := rfl
@[simp] theorem withEffect_x (s : State) (v : BaseEffect) :
    (s.withEffect v).x = (v.x.map s.conf.fit).set 0 0 := rfl
@[simp] theorem withEffect_pc (s : State) (v : BaseEffect) :
    (s.withEffect v).pc = s.conf.fit (BitVec.ofInt 64 v.pc) := rfl
@[simp] theorem withEffect_status (s : State) (v : BaseEffect) :
    (s.withEffect v).status = s.status := rfl
@[simp] theorem withEffect_epc (s : State) (v : BaseEffect) :
    (s.withEffect v).epc = s.epc := rfl
@[simp] theorem withEffect_badvaddr (s : State) (v : BaseEffect) :
    (s.withEffect v).badvaddr = s.badvaddr := rfl
@[simp] theorem withEffect_evec (s : State) (v : BaseEffect) :
    (s.withEffect v).evec = s.evec := rfl
@[simp] theorem withEffect_count (s : State) (v : BaseEffect) :
    (s.withEffect v).count = s.count := rfl
@[simp] theorem withEffect_compare (s : State) (v : BaseEffect) :
    (s.withEffect v).compare = s.compare := rfl
@[simp] theorem withEffect_cause (s : State) (v : BaseEffect) :
    (s.withEffect v).cause = s.cause := rfl
@[simp] theorem withEffect_ptbr (s : State) (v : BaseEffect) :
    (s.withEffect v).ptbr = s.ptbr := rfl
@[simp] theorem withEffect_k0 (s : State) (v : BaseEffect) :
    (s.withEffect v).k0 = s.k0 := rfl
@[simp] theorem withEffect_k1 (s : State) (v : BaseEffect) :
    (s.withEffect v).k1 = s.k1 := rfl
@[simp] theorem withEffect_tohost (s : State) (v : BaseEffect) :
    (s.withEffect v).tohost = s.tohost := rfl
@[simp] theorem withEffect_fromhost (s : State) (v : BaseEffect) :
    (s.withEffect v).fromhost = s.fromhost := rfl
@[simp] theorem withEffect_timerIp (s : State) (v : BaseEffect) :
    (s.withEffect v).timerIp = s.timerIp := rfl
@[simp] theorem withEffect_lines (s : State) (v : BaseEffect) :
    (s.withEffect v).lines = s.lines := rfl
@[simp] theorem withEffect_errmode (s : State) (v : BaseEffect) :
    (s.withEffect v).errmode = s.errmode := rfl
@[simp] theorem withEffect_fp (s : State) (v : BaseEffect) :
    (s.withEffect v).fp = v.fp := rfl
@[simp] theorem withEffect_mem (s : State) (v : BaseEffect) :
    (s.withEffect v).mem = s.mem := rfl
@[simp] theorem withEffect_output (s : State) (v : BaseEffect) :
    (s.withEffect v).output = s.output := rfl
@[simp] theorem withEffect_agenda (s : State) (v : BaseEffect) :
    (s.withEffect v).agenda = s.agenda := rfl
@[simp] theorem withEffect_draws (s : State) (v : BaseEffect) :
    (s.withEffect v).draws = s.draws := rfl
@[simp] theorem withEffect_storedBytes (s : State) (v : BaseEffect) :
    (s.withEffect v).storedBytes = s.storedBytes := rfl
@[simp] theorem withEffect_storedUnderVm (s : State) (v : BaseEffect) :
    (s.withEffect v).storedUnderVm = s.storedUnderVm := rfl
@[simp] theorem withEffect_ptbrUnderVm (s : State) (v : BaseEffect) :
    (s.withEffect v).ptbrUnderVm = s.ptbrUnderVm := rfl

/-! The host writes `fromhost` and nothing else (60_exceptions.md R266). -/

@[simp] theorem hostWrite_conf (v : Word) (s : State) :
    (hostWrite v s).conf = s.conf := rfl
@[simp] theorem hostWrite_x (v : Word) (s : State) :
    (hostWrite v s).x = s.x := rfl
@[simp] theorem hostWrite_pc (v : Word) (s : State) :
    (hostWrite v s).pc = s.pc := rfl
@[simp] theorem hostWrite_status (v : Word) (s : State) :
    (hostWrite v s).status = s.status := rfl
@[simp] theorem hostWrite_epc (v : Word) (s : State) :
    (hostWrite v s).epc = s.epc := rfl
@[simp] theorem hostWrite_badvaddr (v : Word) (s : State) :
    (hostWrite v s).badvaddr = s.badvaddr := rfl
@[simp] theorem hostWrite_evec (v : Word) (s : State) :
    (hostWrite v s).evec = s.evec := rfl
@[simp] theorem hostWrite_count (v : Word) (s : State) :
    (hostWrite v s).count = s.count := rfl
@[simp] theorem hostWrite_compare (v : Word) (s : State) :
    (hostWrite v s).compare = s.compare := rfl
@[simp] theorem hostWrite_cause (v : Word) (s : State) :
    (hostWrite v s).cause = s.cause := rfl
@[simp] theorem hostWrite_ptbr (v : Word) (s : State) :
    (hostWrite v s).ptbr = s.ptbr := rfl
@[simp] theorem hostWrite_k0 (v : Word) (s : State) :
    (hostWrite v s).k0 = s.k0 := rfl
@[simp] theorem hostWrite_k1 (v : Word) (s : State) :
    (hostWrite v s).k1 = s.k1 := rfl
@[simp] theorem hostWrite_tohost (v : Word) (s : State) :
    (hostWrite v s).tohost = s.tohost := rfl
@[simp] theorem hostWrite_fromhost (v : Word) (s : State) :
    (hostWrite v s).fromhost = s.conf.fit v := rfl
@[simp] theorem hostWrite_timerIp (v : Word) (s : State) :
    (hostWrite v s).timerIp = s.timerIp := rfl
@[simp] theorem hostWrite_lines (v : Word) (s : State) :
    (hostWrite v s).lines = s.lines := rfl
@[simp] theorem hostWrite_errmode (v : Word) (s : State) :
    (hostWrite v s).errmode = s.errmode := rfl
@[simp] theorem hostWrite_fp (v : Word) (s : State) :
    (hostWrite v s).fp = s.fp := rfl
@[simp] theorem hostWrite_mem (v : Word) (s : State) :
    (hostWrite v s).mem = s.mem := rfl
@[simp] theorem hostWrite_output (v : Word) (s : State) :
    (hostWrite v s).output = s.output := rfl
@[simp] theorem hostWrite_agenda (v : Word) (s : State) :
    (hostWrite v s).agenda = s.agenda := rfl
@[simp] theorem hostWrite_draws (v : Word) (s : State) :
    (hostWrite v s).draws = s.draws := rfl
@[simp] theorem hostWrite_storedBytes (v : Word) (s : State) :
    (hostWrite v s).storedBytes = s.storedBytes := rfl
@[simp] theorem hostWrite_storedUnderVm (v : Word) (s : State) :
    (hostWrite v s).storedUnderVm = s.storedUnderVm := rfl
@[simp] theorem hostWrite_ptbrUnderVm (v : Word) (s : State) :
    (hostWrite v s).ptbrUnderVm = s.ptbrUnderVm := rfl

/-! An external line moves `lines` and nothing else (60_exceptions.md R230). -/

@[simp] theorem setLine_conf (i : Fin 7) (b : Bool) (s : State) :
    (setLine i b s).conf = s.conf := rfl
@[simp] theorem setLine_x (i : Fin 7) (b : Bool) (s : State) :
    (setLine i b s).x = s.x := rfl
@[simp] theorem setLine_pc (i : Fin 7) (b : Bool) (s : State) :
    (setLine i b s).pc = s.pc := rfl
@[simp] theorem setLine_status (i : Fin 7) (b : Bool) (s : State) :
    (setLine i b s).status = s.status := rfl
@[simp] theorem setLine_epc (i : Fin 7) (b : Bool) (s : State) :
    (setLine i b s).epc = s.epc := rfl
@[simp] theorem setLine_badvaddr (i : Fin 7) (b : Bool) (s : State) :
    (setLine i b s).badvaddr = s.badvaddr := rfl
@[simp] theorem setLine_evec (i : Fin 7) (b : Bool) (s : State) :
    (setLine i b s).evec = s.evec := rfl
@[simp] theorem setLine_count (i : Fin 7) (b : Bool) (s : State) :
    (setLine i b s).count = s.count := rfl
@[simp] theorem setLine_compare (i : Fin 7) (b : Bool) (s : State) :
    (setLine i b s).compare = s.compare := rfl
@[simp] theorem setLine_cause (i : Fin 7) (b : Bool) (s : State) :
    (setLine i b s).cause = s.cause := rfl
@[simp] theorem setLine_ptbr (i : Fin 7) (b : Bool) (s : State) :
    (setLine i b s).ptbr = s.ptbr := rfl
@[simp] theorem setLine_k0 (i : Fin 7) (b : Bool) (s : State) :
    (setLine i b s).k0 = s.k0 := rfl
@[simp] theorem setLine_k1 (i : Fin 7) (b : Bool) (s : State) :
    (setLine i b s).k1 = s.k1 := rfl
@[simp] theorem setLine_tohost (i : Fin 7) (b : Bool) (s : State) :
    (setLine i b s).tohost = s.tohost := rfl
@[simp] theorem setLine_fromhost (i : Fin 7) (b : Bool) (s : State) :
    (setLine i b s).fromhost = s.fromhost := rfl
@[simp] theorem setLine_timerIp (i : Fin 7) (b : Bool) (s : State) :
    (setLine i b s).timerIp = s.timerIp := rfl
@[simp] theorem setLine_errmode (i : Fin 7) (b : Bool) (s : State) :
    (setLine i b s).errmode = s.errmode := rfl
@[simp] theorem setLine_fp (i : Fin 7) (b : Bool) (s : State) :
    (setLine i b s).fp = s.fp := rfl
@[simp] theorem setLine_mem (i : Fin 7) (b : Bool) (s : State) :
    (setLine i b s).mem = s.mem := rfl
@[simp] theorem setLine_output (i : Fin 7) (b : Bool) (s : State) :
    (setLine i b s).output = s.output := rfl
@[simp] theorem setLine_agenda (i : Fin 7) (b : Bool) (s : State) :
    (setLine i b s).agenda = s.agenda := rfl
@[simp] theorem setLine_draws (i : Fin 7) (b : Bool) (s : State) :
    (setLine i b s).draws = s.draws := rfl
@[simp] theorem setLine_storedBytes (i : Fin 7) (b : Bool) (s : State) :
    (setLine i b s).storedBytes = s.storedBytes := rfl
@[simp] theorem setLine_storedUnderVm (i : Fin 7) (b : Bool) (s : State) :
    (setLine i b s).storedUnderVm = s.storedUnderVm := rfl
@[simp] theorem setLine_ptbrUnderVm (i : Fin 7) (b : Bool) (s : State) :
    (setLine i b s).ptbrUnderVm = s.ptbrUnderVm := rfl

end Sys2Proof.Machine
end

