-- ==== Sys2Proof/Laws/Bits.lean ====
section
/-! SUPPORT. Fitting a value to `XPRLEN_IMPL` bits, and the bits of the `status` word. -/

namespace Sys2Proof

@[simp] theorem Config.fit_fit (c : Config) (v : Word) : c.fit (c.fit v) = c.fit v := by
  unfold Config.fit
  split
  · rfl
  · rw [BitVec.and_assoc, BitVec.and_self]

@[simp] theorem Config.fit_zero (c : Config) : c.fit 0#64 = 0#64 := by
  unfold Config.fit; split <;> simp

/-- A fitted value is the value modulo `2^XPRLEN_IMPL` (00_scope.md R15). -/
theorem Config.toNat_fit (c : Config) (v : Word) : (c.fit v).toNat = v.toNat % 2 ^ c.xlen := by
  have hv := v.isLt
  have mask : (0xFFFFFFFF#64 : BitVec 64).toNat = 2 ^ 32 - 1 := by decide
  unfold Config.fit Config.xlen
  split
  · exact (Nat.mod_eq_of_lt hv).symm
  · rw [BitVec.toNat_and, mask, Nat.and_two_pow_sub_one_eq_mod]

/-- A value fits exactly when it is below `2^XPRLEN_IMPL`. -/
theorem Config.fits_iff (c : Config) (v : Word) : c.Fits v ↔ v.toNat < 2 ^ c.xlen := by
  unfold Config.Fits
  constructor
  · intro h
    rw [← h, Config.toNat_fit]
    exact Nat.mod_lt _ (Nat.two_pow_pos _)
  · intro h
    apply BitVec.eq_of_toNat_eq
    rw [Config.toNat_fit, Nat.mod_eq_of_lt h]

/-- Fitting keeps the low two bits clear where they were (10_state.md R48). -/
@[simp] theorem Config.fit_aligned (c : Config) (v : Word) :
    c.fit (v &&& ~~~3#64) &&& 3#64 = 0#64 := by
  unfold Config.fit
  have h : (~~~3#64 : BitVec 64) &&& 3#64 = 0#64 := by decide
  split
  · rw [BitVec.and_assoc, h]; simp
  · rw [BitVec.and_assoc, BitVec.and_comm _ (3#64), ← BitVec.and_assoc, BitVec.and_assoc v, h]
    simp

@[simp] theorem Config.s64Of_s64Of (c : Config) (b : Bool) : c.s64Of (c.s64Of b) = c.s64Of b := by
  unfold Config.s64Of; cases c.variant <;> rfl

@[simp] theorem Config.s64Of_providesRv64 (c : Config) : c.s64Of c.providesRv64 = c.providesRv64 := by
  unfold Config.s64Of Config.providesRv64; cases c.variant <;> rfl

@[simp] theorem Config.u64Of_u64Of (c : Config) (s64 b : Bool) :
    c.u64Of s64 (c.u64Of s64 b) = c.u64Of s64 b := by
  unfold Config.u64Of; cases s64 <;> cases c.hasRv32User <;> simp

@[simp] theorem Config.u64Of_false (c : Config) (b : Bool) : c.u64Of false b = false := rfl

@[simp] theorem Config.efOf_efOf (c : Config) (b : Bool) : c.efOf (c.efOf b) = c.efOf b := by
  unfold Config.efOf; cases c.hasFpu <;> simp

/-- The one bit `bitAt` sets. -/
@[simp] theorem getLsbD_bitAt (p : Nat) (b : Bool) (i : Nat) :
    (bitAt p b).getLsbD i = (decide (i < 32) && b && decide (i = p)) := by
  unfold bitAt
  cases b
  · simp
  · have h1 : ∀ k : Nat, (1#32).getLsbD k = decide (k = 0) := by
      intro k
      rw [show (1#32 : BitVec 32) = BitVec.twoPow 32 0 from rfl, BitVec.getLsbD_twoPow]
      by_cases hk : k = 0 <;> simp [hk]
      omega
    simp only [if_true, BitVec.getLsbD_shiftLeft, h1]
    by_cases hi : i < 32 <;> by_cases hp : i < p <;> simp [hi, hp] <;> omega

namespace Machine

/-- The `status` word field by field: `IM` at 15 to 8, every other field at its own position, the rest
zero (10_state.md R33). -/
theorem getLsbD_statusWord (l : StatusLayout) (st : Status) (i : Nat) (hi : i < 32) :
    (statusWord l st).getLsbD i =
      ((decide (8 ≤ i) && st.im.getLsbD (i - 8)) || (st.vm && decide (i = l.vm)) ||
        (st.s && decide (i = l.s)) || (st.ps && decide (i = l.ps)) ||
        (st.u64 && decide (i = l.u64)) || (st.s64 && decide (i = l.s64)) ||
        (st.ef && decide (i = l.ef)) || (st.et && decide (i = l.et))) := by
  have h8 : (!decide (i < 8)) = decide (8 ≤ i) := by
    by_cases h : i < 8
    · simp [h]
    · simp [h]; omega
  have h32 : i - 8 < 32 := by omega
  simp only [statusWord, BitVec.getLsbD_or, getLsbD_bitAt, BitVec.getLsbD_shiftLeft,
    BitVec.getLsbD_setWidth, hi, h8, h32, decide_true, Bool.true_and]

end Machine

end Sys2Proof
end

