-- ==== Sys2Proof/Laws/Memory.lean ====
section
/-! SUPPORT. Memory: read after write, and the canonical form every memory operation keeps. -/

namespace Sys2Proof.Machine

/-! ### One byte -/

theorem Memory.readByte_consByte (a : Nat) (v : Byte) (m : Memory) (x : Nat)
    (hm : ∀ c ∈ m, a < c.1) :
    (Memory.consByte a v m).readByte x = if x = a then v else m.readByte x := by
  have absent : ∀ l : Memory, (∀ c ∈ l, a < c.1) → l.readByte a = Memory.unlisted := by
    intro l hl
    induction l with
    | nil => rfl
    | cons c l ih =>
      have h1 := hl c (by simp)
      simp only [Memory.readByte, if_neg (by omega : ¬ c.1 = a)]
      exact ih fun d hd => hl d (by simp [hd])
  unfold Memory.consByte
  split
  · next hv =>
    split
    · next hx => rw [hx, absent m hm, hv]
    · rfl
  · by_cases hx : x = a
    · subst hx; simp [Memory.readByte]
    · simp [Memory.readByte, hx, Ne.symm hx]

/-- Reading a byte after a byte write: the written value there, the old byte elsewhere. -/
theorem Memory.readByte_writeByte (m : Memory) (hm : m.Wf) (a : Nat) (v : Byte) (x : Nat) :
    (m.writeByte a v).readByte x = if x = a then v else m.readByte x := by
  induction m with
  | nil => exact Memory.readByte_consByte a v [] x (by simp)
  | cons c m ih =>
    obtain ⟨b, w⟩ := c
    have sorted := List.pairwise_cons.mp hm.1
    have tail : Memory.Wf m := ⟨sorted.2, fun d hd => hm.2 d (by simp [hd])⟩
    unfold Memory.writeByte
    split
    · next hab =>
      refine Memory.readByte_consByte a v _ x ?_
      intro d hd
      rcases List.mem_cons.mp hd with rfl | hd
      · exact hab
      · exact Nat.lt_trans hab (sorted.1 d hd)
    · split
      · next hab =>
        subst hab
        rw [Memory.readByte_consByte a v m x sorted.1]
        by_cases hx : x = a
        · simp [hx]
        · simp [Memory.readByte, hx, Ne.symm hx]
      · next h1 h2 =>
        by_cases hx : b = x
        · subst hx
          simp [Memory.readByte, Ne.symm h2]
        · simp only [Memory.readByte, hx, if_false]
          exact ih tail

/-! ### The canonical form -/

theorem Memory.wf_nil : Memory.Wf [] := by simp [Memory.Wf]

theorem Memory.wf_consByte (a : Nat) (v : Byte) (m : Memory) (hm : m.Wf) (ha : ∀ c ∈ m, a < c.1) :
    (Memory.consByte a v m).Wf := by
  unfold Memory.consByte
  split
  · exact hm
  · next hv =>
    refine ⟨List.pairwise_cons.mpr ⟨ha, hm.1⟩, fun d hd => ?_⟩
    rcases List.mem_cons.mp hd with rfl | hd
    · exact hv
    · exact hm.2 d hd

/-- A byte write adds no address but its own. -/
theorem Memory.mem_writeByte (m : Memory) (a : Nat) (v : Byte) (d : Host.Cell)
    (hd : d ∈ m.writeByte a v) : d.1 = a ∨ d ∈ m := by
  have cons : ∀ l : Memory, d ∈ Memory.consByte a v l → d.1 = a ∨ d ∈ l := by
    intro l h
    unfold Memory.consByte at h
    split at h
    · exact .inr h
    · rcases List.mem_cons.mp h with rfl | h
      · exact .inl rfl
      · exact .inr h
  induction m with
  | nil => exact cons [] hd
  | cons c m ih =>
    unfold Memory.writeByte at hd
    split at hd
    · exact cons _ hd
    · split at hd
      · rcases cons _ hd with h | h
        · exact .inl h
        · exact .inr (by simp [h])
      · rcases List.mem_cons.mp hd with rfl | h
        · exact .inr (by simp)
        · rcases ih h with h | h
          · exact .inl h
          · exact .inr (by simp [h])

theorem Memory.wf_writeByte (m : Memory) (hm : m.Wf) (a : Nat) (v : Byte) :
    (m.writeByte a v).Wf := by
  induction m with
  | nil => exact Memory.wf_consByte a v [] hm (by simp)
  | cons c m ih =>
    obtain ⟨b, w⟩ := c
    have sorted := List.pairwise_cons.mp hm.1
    have tail : Memory.Wf m := ⟨sorted.2, fun d hd => hm.2 d (by simp [hd])⟩
    unfold Memory.writeByte
    split
    · next hab =>
      refine Memory.wf_consByte a v _ hm fun d hd => ?_
      rcases List.mem_cons.mp hd with rfl | hd
      · exact hab
      · exact Nat.lt_trans hab (sorted.1 d hd)
    · split
      · next hab => exact Memory.wf_consByte a v m tail (hab ▸ sorted.1)
      · next h1 h2 =>
        have htail := ih tail
        refine ⟨List.pairwise_cons.mpr ⟨fun d hd => ?_, htail.1⟩, fun d hd => ?_⟩
        · rcases Memory.mem_writeByte m a v d hd with h | h
          · simp only [h]; omega
          · exact sorted.1 d h
        · rcases List.mem_cons.mp hd with rfl | hd
          · exact hm.2 _ (by simp)
          · exact htail.2 d hd

theorem Memory.wf_writeLE (m : Memory) (hm : m.Wf) (a n : Nat) (v : Word) :
    (m.writeLE a n v).Wf := by
  induction n generalizing m a v with
  | zero => exact hm
  | succ n ih => exact ih _ (Memory.wf_writeByte m hm a _) _ _

theorem Memory.wf_ofCells (cells : List Host.Cell) : (Memory.ofCells cells).Wf := by
  have : ∀ m : Memory, m.Wf → (cells.foldl (fun m c => m.writeByte c.1 c.2) m).Wf := by
    induction cells with
    | nil => exact fun m hm => hm
    | cons c cells ih => exact fun m hm => ih _ (Memory.wf_writeByte m hm _ _)
  exact this [] Memory.wf_nil

/-! ### Accesses of several bytes -/

/-- A byte after a store of `n` bytes: byte `k` of the value at `a + k`, the old byte elsewhere
(20_memory.md R85). -/
theorem Memory.readByte_writeLE (m : Memory) (hm : m.Wf) (a n : Nat) (v : Word) (x : Nat) :
    (m.writeLE a n v).readByte x =
      if a ≤ x ∧ x < a + n then v.extractLsb' (8 * (x - a)) 8 else m.readByte x := by
  induction n generalizing m a v with
  | zero => simp [Memory.writeLE]
  | succ n ih =>
    rw [Memory.writeLE, ih _ (Memory.wf_writeByte m hm a _), Memory.readByte_writeByte m hm]
    by_cases h1 : a + 1 ≤ x ∧ x < a + 1 + n
    · rw [if_pos h1, if_pos (by omega)]
      apply BitVec.eq_of_getLsbD_eq
      intro i hi
      have : 8 + (8 * (x - (a + 1)) + i) = 8 * (x - a) + i := by omega
      simp [hi, BitVec.getLsbD_ushiftRight, this]
    · by_cases h2 : x = a
      · subst h2
        rw [if_neg h1, if_pos rfl, if_pos (by omega)]
        apply BitVec.eq_of_getLsbD_eq
        intro i hi
        simp [hi]
      · rw [if_neg h1, if_neg h2, if_neg (by omega)]

/-- The bits of a read: bit `i` is bit `i mod 8` of byte `i / 8` (20_memory.md R84). -/
theorem Memory.getLsbD_readLE (m : Memory) (a n : Nat) (i : Nat) (hi : i < 64) :
    (m.readLE a n).getLsbD i =
      (decide (i < 8 * n) && (m.readByte (a + i / 8)).getLsbD (i % 8)) := by
  induction n generalizing a i with
  | zero => simp [Memory.readLE]
  | succ n ih =>
    rw [Memory.readLE, BitVec.getLsbD_or, BitVec.getLsbD_shiftLeft, BitVec.getLsbD_setWidth]
    by_cases h : i < 8
    · have h0 : i / 8 = 0 := by omega
      have h1 : i % 8 = i := by omega
      have h2 : i < 8 * (n + 1) := by omega
      simp [h, hi, h0, h1, h2]
    · have h0 : a + 1 + (i - 8) / 8 = a + i / 8 := by omega
      have h1 : (i - 8) % 8 = i % 8 := by omega
      have h2 : (m.readByte a).getLsbD i = false := BitVec.getLsbD_of_ge _ _ (by omega)
      have h3 : decide (i - 8 < 8 * n) = decide (i < 8 * (n + 1)) := by
        by_cases h4 : i < 8 * (n + 1) <;> simp [h4] <;> omega
      rw [ih (a + 1) (i - 8) (by omega), h0, h1, h2, h3]
      simp [h, hi]

/-- Two memories with the same bytes read the same. -/
theorem Memory.readLE_congr (m m' : Memory) (a n : Nat)
    (h : ∀ k < n, m.readByte (a + k) = m'.readByte (a + k)) : m.readLE a n = m'.readLE a n := by
  induction n generalizing a with
  | zero => rfl
  | succ n ih =>
    rw [Memory.readLE, Memory.readLE, ih (a + 1) fun k hk => by
      simpa [Nat.add_assoc, Nat.add_comm 1] using h (k + 1) (by omega)]
    rw [show m.readByte a = m'.readByte a from h 0 (by omega)]

/-- The low `n` bytes of a value come back from the place they were stored to. -/
theorem Memory.readLE_writeLE (m : Memory) (hm : m.Wf) (a n : Nat) (v : Word) :
    (m.writeLE a n v).readLE a n = v &&& BitVec.ofNat 64 (2 ^ (8 * n) - 1) := by
  apply BitVec.eq_of_getLsbD_eq
  intro i hi
  have mask : (BitVec.ofNat 64 (2 ^ (8 * n) - 1)).getLsbD i = decide (i < 8 * n) := by
    rw [BitVec.getLsbD_ofNat, Nat.testBit_two_pow_sub_one]; simp [hi]
  rw [Memory.getLsbD_readLE _ _ _ _ hi, BitVec.getLsbD_and, mask]
  by_cases h : i < 8 * n
  · have h1 : a ≤ a + i / 8 ∧ a + i / 8 < a + n := by omega
    rw [Memory.readByte_writeLE m hm, if_pos h1, BitVec.getLsbD_extractLsb', show 8 * (a + i / 8 - a) + i % 8 = i by omega]
    have h3 : i % 8 < 8 := by omega
    simp [h, h3]
  · simp [h]

/-! ### The recorded addresses -/

theorem mem_insertAddr (a x : Nat) (l : List Nat) : x ∈ insertAddr a l ↔ x = a ∨ x ∈ l := by
  induction l with
  | nil => simp [insertAddr]
  | cons b l ih =>
    unfold insertAddr
    split
    · simp
    · split
      · next h => subst h; simp
      · simp only [List.mem_cons, ih]; tauto

theorem pairwise_insertAddr (a : Nat) (l : List Nat) (h : l.Pairwise (· < ·)) :
    (insertAddr a l).Pairwise (· < ·) := by
  induction l with
  | nil => simp [insertAddr]
  | cons b l ih =>
    have hb := List.pairwise_cons.mp h
    unfold insertAddr
    split
    · next hab =>
      refine List.pairwise_cons.mpr ⟨fun d hd => ?_, h⟩
      rcases List.mem_cons.mp hd with rfl | hd
      · exact hab
      · exact Nat.lt_trans hab (hb.1 d hd)
    · split
      · exact h
      · next h1 h2 =>
        refine List.pairwise_cons.mpr ⟨fun d hd => ?_, ih hb.2⟩
        rcases (mem_insertAddr a d l).mp hd with rfl | hd
        · omega
        · exact hb.1 d hd

theorem pairwise_insertAddrs (a n : Nat) (l : List Nat) (h : l.Pairwise (· < ·)) :
    (insertAddrs a n l).Pairwise (· < ·) := by
  induction n generalizing a l with
  | zero => exact h
  | succ n ih => exact ih _ _ (pairwise_insertAddr a l h)

/-- The addresses a store of `n` bytes records. -/
theorem mem_insertAddrs (a n x : Nat) (l : List Nat) :
    x ∈ insertAddrs a n l ↔ (a ≤ x ∧ x < a + n) ∨ x ∈ l := by
  induction n generalizing a l with
  | zero =>
    simp only [insertAddrs]
    exact ⟨.inr, fun h => h.resolve_left (by omega)⟩
  | succ n ih =>
    rw [insertAddrs, ih, mem_insertAddr]
    by_cases h : x ∈ l
    · simp [h]
    · simp [h]; omega

/-- One recorded address among the `n` from `a` up is enough (20_memory.md R113, R114). -/
theorem disjointFrom_of_mem (l : List Nat) (a n k : Nat) (hk : k < n) (h : a + k ∈ l) :
    disjointFrom l a n = false := by
  unfold disjointFrom
  rw [List.all_eq_false]
  exact ⟨k, by simpa using hk, by simpa using h⟩

/-! ### Physical accesses -/

/-- Everything a physical write does (20_memory.md R82, R85). -/
theorem physWrite_eq_some (s t : State) (pa n : Nat) (v : Word) (h : physWrite s pa n v = some t) :
    physPresent s.conf pa n = true ∧
      t = { s with
        mem := s.mem.writeLE pa n v
        storedBytes := insertAddrs pa n s.storedBytes
        storedUnderVm :=
          if s.status.vm then insertAddrs pa n s.storedUnderVm else s.storedUnderVm } := by
  unfold physWrite at h
  split at h
  · next hp => exact ⟨hp, (Option.some.inj h).symm⟩
  · cases h

/-- Everything a physical read does (20_memory.md R82, R84). -/
theorem physRead_eq_some (s : State) (pa n : Nat) (v : Word) (h : physRead s pa n = some v) :
    physPresent s.conf pa n = true ∧ v = s.mem.readLE pa n := by
  unfold physRead at h
  split at h
  · next hp => exact ⟨hp, (Option.some.inj h).symm⟩
  · cases h

end Sys2Proof.Machine
end

