-- ==== Sys2Proof/Laws/Ops.lean ====
section
/-! SUPPORT. What each shared operation can do, said once: taking an exception, moving past an
instruction, reading and writing the two kinds of register. -/

namespace Sys2Proof.Machine

/-! ### Taking an exception -/

theorem takeException_of_et (c : Cause) (e va : Word) (s : State) (h : s.status.et = true) :
    takeException c e va s = enterHandler c e va s := by
  simp [takeException, h]

theorem takeException_of_not_et (c : Cause) (e va : Word) (s : State) (h : s.status.et = false) :
    takeException c e va s = enterErrorMode s := by
  simp [takeException, h]

/-- Everything an exception can do (60_exceptions.md R240, R243): the handler is entered, or error
mode. -/
theorem takeException_cases (c : Cause) (e va : Word) (s : State) :
    (s.status.et = true ∧ takeException c e va s = enterHandler c e va s) ∨
      (s.status.et = false ∧ takeException c e va s = enterErrorMode s) := by
  cases h : s.status.et
  · exact .inr ⟨rfl, takeException_of_not_et c e va s h⟩
  · exact .inl ⟨rfl, takeException_of_et c e va s h⟩

/-- What no exception changes, error mode included (60_exceptions.md R240). -/
theorem takeException_frame (c : Cause) (e va : Word) (s : State) :
    takeException c e va s =
      { s with
        pc := (takeException c e va s).pc
        status := (takeException c e va s).status
        epc := (takeException c e va s).epc
        badvaddr := (takeException c e va s).badvaddr
        cause := (takeException c e va s).cause
        errmode := (takeException c e va s).errmode
        draws := (takeException c e va s).draws } := by
  rcases takeException_cases c e va s with ⟨-, h⟩ | ⟨-, h⟩ <;> rw [h] <;> rfl

/-- The codes are those of Table 2: below 24, and none of the unused ones (60_exceptions.md R220,
R221). -/
theorem Cause.code_range (c : Cause) :
    c.code < 24 ∧ c.code ≠ 5 ∧ ¬ (12 ≤ c.code ∧ c.code ≤ 15) := by
  cases c <;> simp [Cause.code]
  omega

/-- The exceptions that record an address are those of codes 8 to 11 (10_state.md R47). -/
theorem Cause.recordsAddress_iff (c : Cause) :
    c.recordsAddress = true ↔ c.code ∈ [8, 9, 10, 11] := by
  cases c <;> simp [Cause.recordsAddress, Cause.code]
  omega

/-! ### Moving past an instruction -/

theorem complete_of_canGoTo (target : Int) (done : State) (h : done.CanGoTo target) :
    complete target done = .next done := by
  rw [complete, if_neg]
  rintro ⟨h1, h2⟩
  rcases h with h | ⟨h, h'⟩
  · rw [h] at h1; cases h1
  · simp only [pcLeaves, Bool.or_eq_true, decide_eq_true_eq] at h2
    omega

/-- Where the implementation refuses a `pc` that wraps, it does (10_state.md R26). -/
theorem complete_of_leaves (target : Int) (done : State) (hp : done.conf.pcWrap = .refuse)
    (h : pcLeaves done.conf target = true) : complete target done = .refused .pcWrap := by
  simp [complete, hp, h]

/-- Everything the end of an instruction can do (10_state.md R26). -/
theorem complete_cases (target : Int) (done : State) :
    complete target done = .next done ∨ complete target done = .refused .pcWrap := by
  unfold complete
  split
  · exact .inr rfl
  · exact .inl rfl

theorem complete_next (target : Int) (done t : State) (h : complete target done = .next t) :
    t = done := by
  rcases complete_cases target done with h' | h' <;> rw [h'] at h
  · exact (Host.Outcome.next.inj h).symm
  · cases h

/-- Whether a step can go on is a matter of the implementation and the target. -/
theorem State.CanGoTo.congr {s t : State} {target : Int} (h : s.CanGoTo target)
    (hc : t.conf = s.conf) : t.CanGoTo target := by
  simpa only [State.CanGoTo, hc] using h

theorem State.CanAdvance.congr {s t : State} (h : s.CanAdvance) (hc : t.conf = s.conf)
    (hpc : t.pc = s.pc) : t.CanAdvance := by
  simpa only [State.CanAdvance, State.CanGoTo, hc, hpc] using h

theorem advance_of_canAdvance (s : State) (h : s.CanAdvance) :
    advance s = .next (s.withPc (s.conf.fit (s.pc + 4))) :=
  complete_of_canGoTo _ _ h

/-- At the end of the address space the implementation that refuses a wrapping `pc` does (10_state.md
R26). -/
theorem advance_of_leaves (s : State) (hp : s.conf.pcWrap = .refuse)
    (h : 2 ^ s.conf.xlen ≤ s.pc.toNat + 4) : advance s = .refused .pcWrap :=
  complete_of_leaves _ _ hp (by
    change pcLeaves s.conf _ = true
    simp only [pcLeaves, Bool.or_eq_true, decide_eq_true_eq]
    omega)

/-- Everything `advance` can do (10_state.md R26). -/
theorem advance_cases (s : State) :
    advance s = .next (s.withPc (s.conf.fit (s.pc + 4))) ∨ advance s = .refused .pcWrap :=
  complete_cases _ _

theorem advance_next (s t : State) (h : advance s = .next t) :
    t = s.withPc (s.conf.fit (s.pc + 4)) := by
  rcases advance_cases s with h' | h' <;> rw [h'] at h
  · exact (Host.Outcome.next.inj h).symm
  · cases h

/-! ### x registers -/

/-- A write then a read of an x register (10_state.md R21): the written value in its own register, the
old one elsewhere, zero in `x0`. -/
theorem readX_writeX (s : State) (i j : RegIdx) (v : Word) :
    (s.writeX i v).readX j = if j = i ∧ j ≠ 0 then s.conf.fit v else s.readX j := by
  unfold State.writeX State.readX
  by_cases hj : j = 0
  · simp [hj]
  · by_cases hi : i = 0
    · have : j ≠ i := fun h => hj (h.trans hi)
      simp [hi, hj]
    · by_cases hij : j = i
      · subst hij; simp [hj]
      · have hne : i.val ≠ j.val := fun h => hij (Fin.ext h.symm)
        simp [hi, hj, hij, hne]

theorem writeX_eq (s : State) (i : RegIdx) (v : Word) :
    s.writeX i v = { s with x := (s.writeX i v).x } := by
  unfold State.writeX; split <;> rfl

/-! ### Control registers -/

/-- A read of a control register changes nothing but the count of free values (40_privileged.md
R171). -/
theorem readPcr_state (cr : Pcr) (s : State) :
    (readPcr cr s).2 = { s with draws := (readPcr cr s).2.draws } := by
  have ext (v : BitVec 32) : (ext32 v s).2 = { s with draws := (ext32 v s).2.draws } := by
    unfold ext32
    cases s.conf.providesRv64 <;> cases s.conf.pcr32Ext <;> rfl
  cases cr <;> first | rfl | exact ext _

theorem readPcr_conf (cr : Pcr) (s : State) : (readPcr cr s).2.conf = s.conf := by
  rw [readPcr_state]

theorem readPcr_pc (cr : Pcr) (s : State) : (readPcr cr s).2.pc = s.pc := by
  rw [readPcr_state]

/-- What no write of a control register changes (40_privileged.md R175). -/
theorem writePcr_frame (cr : Pcr) (v : Word) (s : State) :
    writePcr cr v s =
      { s with
        status := (writePcr cr v s).status
        evec := (writePcr cr v s).evec
        count := (writePcr cr v s).count
        compare := (writePcr cr v s).compare
        timerIp := (writePcr cr v s).timerIp
        ptbr := (writePcr cr v s).ptbr
        ptbrUnderVm := (writePcr cr v s).ptbrUnderVm
        k0 := (writePcr cr v s).k0
        k1 := (writePcr cr v s).k1
        tohost := (writePcr cr v s).tohost
        output := (writePcr cr v s).output
        draws := (writePcr cr v s).draws } := by
  cases cr <;> first | rfl | (simp only [writePcr, writeCount]; split <;> rfl)

theorem writePcr_conf (cr : Pcr) (v : Word) (s : State) : (writePcr cr v s).conf = s.conf := by
  rw [writePcr_frame]

theorem writePcr_pc (cr : Pcr) (v : Word) (s : State) : (writePcr cr v s).pc = s.pc := by
  rw [writePcr_frame]

/-! ### The guards of the privileged instructions -/

theorem inSupervisorMode_of_user (s : State) (act : State → Result) (h : s.status.s = false) :
    inSupervisorMode s act = raise .privilegedInstr 0 s := by
  simp [inSupervisorMode, h]

theorem inSupervisorMode_of_supervisor (s : State) (act : State → Result)
    (h : s.status.s = true) : inSupervisorMode s act = act s := by
  simp [inSupervisorMode, h]

/-- Everything the check of a control register number can do (10_state.md R30). -/
theorem onPcr_cases (cr : Pcr) (s : State) (act : State → Result) :
    onPcr cr s act = act s ∨
      (Pcr.isUnused cr = true ∧ s.conf.unusedPcr = .refuse ∧
        onPcr cr s act = .refused .unusedPcr) ∨
      (Pcr.isUnused cr = true ∧ s.conf.unusedPcr = .illegalInstruction ∧
        onPcr cr s act = raise .illegalInstr 0 s) := by
  unfold onPcr
  cases h : Pcr.isUnused cr
  · exact .inl rfl
  · cases h' : s.conf.unusedPcr
    · exact .inr (.inl ⟨rfl, rfl, rfl⟩)
    · exact .inr (.inr ⟨rfl, rfl, rfl⟩)
    · exact .inl rfl

/-- `mfpcr` of a register of Table 1 in supervisor mode (40_privileged.md R171). -/
theorem execMfpcr_of_supervisor (rd : RegIdx) (cr : Pcr) (s : State) (hs : s.status.s = true)
    (ha : s.CanAdvance) (hu : Pcr.isUnused cr = false) :
    execMfpcr rd cr s =
      .next (((readPcr cr s).2.writeX rd (readPcr cr s).1).withPc (s.conf.fit (s.pc + 4))) := by
  have h := advance_of_canAdvance ((readPcr cr s).2.writeX rd (readPcr cr s).1)
    (ha.congr (by rw [writeX_conf, readPcr_conf]) (by rw [writeX_pc, readPcr_pc]))
  rw [writeX_conf, writeX_pc, readPcr_conf, readPcr_pc] at h
  simp [execMfpcr, inSupervisorMode_of_supervisor _ _ hs, onPcr, hu, h]

/-- `mtpcr` to a writable register of Table 1 in supervisor mode (40_privileged.md R174). -/
theorem execMtpcr_of_supervisor (rs : RegIdx) (cr : Pcr) (s : State) (hs : s.status.s = true)
    (ha : s.CanAdvance) (hu : Pcr.isUnused cr = false) (hr : Pcr.isReadOnly cr = false) :
    execMtpcr rs cr s = .next ((writePcr cr (s.readX rs) s).withPc (s.conf.fit (s.pc + 4))) := by
  have h := advance_of_canAdvance (writePcr cr (s.readX rs) s)
    (ha.congr (writePcr_conf ..) (writePcr_pc ..))
  rw [writePcr_conf, writePcr_pc] at h
  simp [execMtpcr, inSupervisorMode_of_supervisor _ _ hs, onPcr, hu, hr, h]

/-- What `mfpcr` leaves beside its destination, the `pc` and the count of free values. -/
theorem mfpcr_frame (rd : RegIdx) (cr : Pcr) (v p : Word) (s : State) :
    ((readPcr cr s).2.writeX rd v).withPc p =
      { s with
        x := (((readPcr cr s).2.writeX rd v).withPc p).x
        pc := (((readPcr cr s).2.writeX rd v).withPc p).pc
        draws := (((readPcr cr s).2.writeX rd v).withPc p).draws } := by
  have h := readPcr_state cr s
  generalize (readPcr cr s).2 = r at h ⊢
  have h' := writeX_eq r rd v
  generalize r.writeX rd v = q at h' ⊢
  rw [h', h]
  rfl

/-- The `pc` is no x register. -/
@[simp] theorem readX_withPc (s : State) (p : Word) (i : RegIdx) :
    (s.withPc p).readX i = s.readX i := rfl

theorem readX_readPcr (cr : Pcr) (s : State) (i : RegIdx) :
    (readPcr cr s).2.readX i = s.readX i := by
  rw [readPcr_state]; rfl

theorem readX_writePcr (cr : Pcr) (v : Word) (s : State) (i : RegIdx) :
    (writePcr cr v s).readX i = s.readX i := by
  rw [writePcr_frame]; rfl

/-- Everything `mfpcr` can do (40_privileged.md R170, R171). -/
theorem execMfpcr_cases (rd : RegIdx) (cr : Pcr) (s : State) :
    (∃ c, execMfpcr rd cr s = .next (takeException c s.pc 0 s) ∧
      (s.status.s = false ∨ Pcr.isUnused cr = true ∧ s.conf.unusedPcr = .illegalInstruction)) ∨
    (∃ r, execMfpcr rd cr s = .refused r) ∨
    (s.status.s = true ∧
      execMfpcr rd cr s =
        .next (((readPcr cr s).2.writeX rd (readPcr cr s).1).withPc (s.conf.fit (s.pc + 4)))) := by
  unfold execMfpcr
  cases h : s.status.s
  · exact .inl ⟨_, inSupervisorMode_of_user _ _ h, .inl rfl⟩
  · rw [inSupervisorMode_of_supervisor _ _ h]
    rcases onPcr_cases cr s
      (fun s => advance ((readPcr cr s).2.writeX rd (readPcr cr s).1)) with h' | ⟨_, _, h'⟩ | ⟨hu, hp, h'⟩
    · rw [h']
      rcases advance_cases ((readPcr cr s).2.writeX rd (readPcr cr s).1) with ha | ha
      · refine .inr (.inr ⟨rfl, ?_⟩)
        rw [ha, writeX_conf, writeX_pc, readPcr_conf, readPcr_pc]
      · exact .inr (.inl ⟨_, ha⟩)
    · exact .inr (.inl ⟨_, h'⟩)
    · exact .inl ⟨_, h', .inr ⟨hu, hp⟩⟩

/-- Everything `mtpcr` can do (40_privileged.md R170, R174, R176). -/
theorem execMtpcr_cases (rs : RegIdx) (cr : Pcr) (s : State) :
    (∃ c, execMtpcr rs cr s = .next (takeException c s.pc 0 s) ∧
      (s.status.s = false ∨ Pcr.isUnused cr = true ∧ s.conf.unusedPcr = .illegalInstruction)) ∨
    (∃ r, execMtpcr rs cr s = .refused r) ∨
    (s.status.s = true ∧
      execMtpcr rs cr s =
        .next ((writePcr cr (s.readX rs) s).withPc (s.conf.fit (s.pc + 4)))) := by
  unfold execMtpcr
  cases h : s.status.s
  · exact .inl ⟨_, inSupervisorMode_of_user _ _ h, .inl rfl⟩
  · rw [inSupervisorMode_of_supervisor _ _ h]
    rcases onPcr_cases cr s
      (fun s => if Pcr.isReadOnly cr = true ∧ s.conf.roWrite = .refuse then .refused .readOnlyPcr
        else advance (writePcr cr (s.readX rs) s)) with h' | ⟨_, _, h'⟩ | ⟨hu, hp, h'⟩
    · rw [h']
      split
      · exact .inr (.inl ⟨_, rfl⟩)
      · rcases advance_cases (writePcr cr (s.readX rs) s) with ha | ha
        · refine .inr (.inr ⟨rfl, ?_⟩)
          rw [ha, writePcr_conf, writePcr_pc]
        · exact .inr (.inl ⟨_, ha⟩)
    · exact .inr (.inl ⟨_, h'⟩)
    · exact .inl ⟨_, h', .inr ⟨hu, hp⟩⟩

/-- Everything `eret` can do (40_privileged.md R170, R177). -/
theorem execEret_cases (s : State) :
    (s.status.s = false ∧ execEret s = .next (takeException .privilegedInstr s.pc 0 s)) ∨
    (s.status.s = true ∧ execEret s = .next (returnFromException s)) := by
  unfold execEret
  cases h : s.status.s
  · exact .inl ⟨rfl, inSupervisorMode_of_user _ _ h⟩
  · exact .inr ⟨rfl, inSupervisorMode_of_supervisor _ _ h⟩

end Sys2Proof.Machine
end

