-- ==== Sys2Proof/Laws/Translate.lean ====
section
/-! SUPPORT. Translation: what a walk can answer, and what it depends on. -/

namespace Sys2Proof.Machine

/-- A walk and a translation read these parts of the state and no other (20_memory.md R96, R102). -/
structure SameTables (s t : State) : Prop where
  conf : t.conf = s.conf
  status : t.status = s.status
  ptbr : t.ptbr = s.ptbr
  mem : t.mem = s.mem
  storedUnderVm : t.storedUnderVm = s.storedUnderVm
  ptbrUnderVm : t.ptbrUnderVm = s.ptbrUnderVm

theorem physRead_congr {s t : State} (h : SameTables s t) (pa n : Nat) :
    physRead t pa n = physRead s pa n := by
  simp [physRead, h.conf, h.mem]

theorem readPte_congr {s t : State} (h : SameTables s t) (a : Nat) : readPte t a = readPte s a := by
  simp [readPte, physRead_congr h, ptStable, h.conf, h.status, h.storedUnderVm, h.ptbrUnderVm]

theorem walkEntry_congr {s t : State} (h : SameTables s t) (va : Word) (kind : AccessKind)
    (mode : Bool) (i a : Nat) : walkEntry t va kind mode i a = walkEntry s va kind mode i a := by
  simp [walkEntry, pteAddress, readPte_congr h, h.status]

theorem walk_congr {s t : State} (h : SameTables s t) (va : Word) (kind : AccessKind) (mode : Bool)
    (i a : Nat) : walk t va kind mode i a = walk s va kind mode i a := by
  induction i generalizing a with
  | zero => simp [walk, walkEntry_congr h]
  | succ i ih => simp [walk, walkEntry_congr h, ih]

theorem translateAddr_congr {s t : State} (h : SameTables s t) (va : Word) (kind : AccessKind)
    (mode : Bool) : translateAddr t va kind mode = translateAddr s va kind mode := by
  simp [translateAddr, walk_congr h, h.conf, h.status, h.ptbr]

theorem fetch_congr {s t : State} (h : SameTables s t) (hpc : t.pc = s.pc)
    (hst : t.storedBytes = s.storedBytes) : fetch t = fetch s := by
  simp [fetch, translateAddr_congr h, physRead_congr h, noSmc, hpc, hst, h.conf, h.status]

/-- Everything a PTE can mean (20_memory.md R96, R103). -/
theorem Pte.entry_cases (pte : Pte) (p : Paging) (va : Word) (kind : AccessKind) (mode : Bool)
    (i : Nat) :
    (pte.e = true ∧ pte.allows kind mode = true ∧
        pte.entry p va kind mode i = .leaf (p.leafAddress pte va i)) ∨
      pte.entry p va kind mode i = .error ∨
      (pte.e = false ∧ pte.t = true ∧ i ≠ 0 ∧
        pte.entry p va kind mode i = .table (pte.ppn * p.pageSize)) := by
  unfold Pte.entry
  cases pte.e <;> cases pte.allows kind mode <;> cases pte.t <;> by_cases hi : i = 0 <;> simp [hi]

/-- Everything one level of the walk can answer (20_memory.md R96, R103). -/
theorem walkEntry_cases (s : State) (va : Word) (kind : AccessKind) (mode : Bool) (i a : Nat) :
    (∃ r, walkEntry s va kind mode i a = .refused r) ∨
    (∃ pte, readPte s (pteAddress s va i a) = .ok pte ∧
      walkEntry s va kind mode i a = pte.entry (Paging.of s.status.s64) va kind mode i) := by
  unfold walkEntry
  cases readPte s (pteAddress s va i a) with
  | error r => exact .inl ⟨r, rfl⟩
  | ok pte => exact .inr ⟨pte, rfl, rfl⟩

theorem walkEntry_of_readPte (s : State) (va : Word) (kind : AccessKind) (mode : Bool) (i a : Nat)
    (pte : Pte) (h : readPte s (pteAddress s va i a) = .ok pte) :
    walkEntry s va kind mode i a = pte.entry (Paging.of s.status.s64) va kind mode i := by
  simp [walkEntry, h]

/-- A walk raises nothing but the access fault of its kind, with the address it translates
(20_memory.md R99). -/
theorem walk_trap (s : State) (va : Word) (kind : AccessKind) (mode : Bool) (i a : Nat) (c : Cause)
    (v : Word) (h : walk s va kind mode i a = .trap c v) : c = accessFault kind ∧ v = va := by
  induction i generalizing a with
  | zero =>
    rw [walk] at h
    split at h <;> simp_all
  | succ i ih =>
    rw [walk] at h
    split at h
    · cases h
    · cases h
    · simp_all
    · exact ih _ h

/-- The page number of a PTE has the width of its variant (20_memory.md R90, R92). -/
theorem readPte_ppn_lt (s : State) (a : Nat) (pte : Pte) (h : readPte s a = .ok pte) :
    pte.ppn < 2 ^ (Paging.of s.status.s64).ppnBits := by
  unfold readPte at h
  simp only at h
  split at h
  · cases h
  · split at h
    · cases h; exact Nat.mod_lt _ (Nat.two_pow_pos _)
    · cases h

/-- One level of the walk that answers an address answers a leaf's. -/
theorem walkEntry_leaf (s : State) (va : Word) (kind : AccessKind) (mode : Bool) (i a pa : Nat)
    (h : walkEntry s va kind mode i a = .leaf pa) :
    ∃ pte, pte.ppn < 2 ^ (Paging.of s.status.s64).ppnBits ∧ pte.allows kind mode = true ∧
      pa = (Paging.of s.status.s64).leafAddress pte va i := by
  rcases walkEntry_cases s va kind mode i a with ⟨r, hr⟩ | ⟨pte, hp, hw⟩
  · rw [hr] at h; cases h
  · rw [hw] at h
    rcases pte.entry_cases (Paging.of s.status.s64) va kind mode i with
      ⟨_, ha, he⟩ | he | ⟨_, _, _, he⟩ <;> rw [he] at h <;> cases h
    exact ⟨pte, readPte_ppn_lt s _ pte hp, ha, rfl⟩

/-- A walk that answers an address answers one leaf's (20_memory.md R96 step 3). -/
theorem walk_ok (s : State) (va : Word) (kind : AccessKind) (mode : Bool) (i a pa : Nat)
    (h : walk s va kind mode i a = .ok pa) :
    ∃ pte j, j ≤ i ∧ pte.ppn < 2 ^ (Paging.of s.status.s64).ppnBits ∧ pte.allows kind mode = true ∧
      pa = (Paging.of s.status.s64).leafAddress pte va j := by
  induction i generalizing a with
  | zero =>
    rw [walk] at h
    split at h <;> cases h
    next hw =>
      obtain ⟨pte, hlt, ha, hpa⟩ := walkEntry_leaf _ _ _ _ _ _ _ hw
      exact ⟨pte, 0, Nat.le_refl 0, hlt, ha, hpa⟩
  | succ i ih =>
    rw [walk] at h
    split at h
    · next hw =>
      cases h
      obtain ⟨pte, hlt, ha, hpa⟩ := walkEntry_leaf _ _ _ _ _ _ _ hw
      exact ⟨pte, i + 1, Nat.le_refl _, hlt, ha, hpa⟩
    · cases h
    · cases h
    · obtain ⟨pte, j, hj, hlt, ha, hpa⟩ := ih _ h
      exact ⟨pte, j, by omega, hlt, ha, hpa⟩

/-- With `VM = 1`, a translatable address and an aligned root, translation is the walk (20_memory.md
R96). -/
theorem translateAddr_eq_walk (s : State) (va : Word) (kind : AccessKind) (mode : Bool)
    (hvm : s.status.vm = true) (hc : s.status.s64 = false ∨ canonical va = true)
    (hr : s.ptbr.toNat % (Paging.of s.status.s64).pageSize = 0) :
    translateAddr s va kind mode =
      walk s va kind mode ((Paging.of s.status.s64).levels - 1) s.ptbr.toNat := by
  unfold translateAddr
  rcases hc with hc | hc <;> simp [hvm, hc, hr]
  intro h
  simp [hc] at hr
  exact absurd hr (by simpa using h)

/-- An aligned load by what its translation answers (41_base_isa_interface.md R195). -/
theorem memRead_of_aligned (s : State) (va : Word) (w : Width) (h : va.toNat % w.bytes = 0) :
    memRead s va w =
      match translateAddr s va .load s.status.s with
      | .trap c a => .trap c a
      | .refused r => .refused r
      | .ok pa =>
        if physPresent s.conf pa w.bytes then .ok (s.mem.readLE pa w.bytes)
        else .refused .absentMemory := by
  rw [memRead, if_neg (fun h' => h' h)]
  cases translateAddr s va .load s.status.s with
  | trap c a => rfl
  | refused r => rfl
  | ok pa =>
    simp only [physRead]
    cases physPresent s.conf pa w.bytes <;> rfl

/-- An aligned store by what its translation answers (41_base_isa_interface.md R196). -/
theorem memWrite_of_aligned (s : State) (va : Word) (w : Width) (v : Word)
    (h : va.toNat % w.bytes = 0) :
    memWrite s va w v =
      match translateAddr s va .store s.status.s with
      | .trap c a => .trap c a
      | .refused r => .refused r
      | .ok pa =>
        match physWrite s pa w.bytes v with
        | some s' => .ok s'
        | none => .refused .absentMemory := by
  rw [memWrite]
  exact if_neg fun h' => h' h

/-- Everything a store that completes does (41_base_isa_interface.md R196). -/
theorem memWrite_ok (s t : State) (va : Word) (w : Width) (v : Word) (h : memWrite s va w v = .ok t) :
    va.toNat % w.bytes = 0 ∧ ∃ pa, translateAddr s va .store s.status.s = .ok pa ∧
      physWrite s pa w.bytes v = some t := by
  unfold memWrite at h
  split at h
  · cases h
  · next ha =>
    refine ⟨by omega, ?_⟩
    split at h
    · cases h
    · cases h
    · next pa hpa =>
      refine ⟨pa, hpa, ?_⟩
      split at h
      · next s' hs => cases h; exact hs
      · cases h

end Sys2Proof.Machine
end

