-- ==== Sys2Proof/Laws/Cycle.lean ====
section
/-! SUPPORT. Everything a base instruction, a processor move and a step can do, said once; later proofs
split on these instead of unfolding the step. -/

namespace Sys2Proof.Machine

/-! One instruction, one meaning. -/

theorem exec_mfpcr (rd : RegIdx) (cr : Pcr) (s : State) :
    exec (.mfpcr rd cr) s = execMfpcr rd cr s := rfl

theorem exec_mtpcr (rs : RegIdx) (cr : Pcr) (s : State) :
    exec (.mtpcr rs cr) s = execMtpcr rs cr s := rfl

theorem exec_eret (s : State) : exec .eret s = execEret s := rfl

/-- The end of a base instruction (10_state.md R24 (d), R26). -/
theorem finish_of_canGoTo (e : BaseEffect) (s : State) (h : s.CanGoTo e.pc) :
    finish e s = .next (s.withEffect e) :=
  complete_of_canGoTo _ _ h

theorem finish_of_leaves (e : BaseEffect) (s : State) (hp : s.conf.pcWrap = .refuse)
    (h : pcLeaves s.conf e.pc = true) : finish e s = .refused .pcWrap :=
  complete_of_leaves _ _ hp h

theorem withEffect_completesAs (s : State) (e : BaseEffect) : s.CompletesAs e (s.withEffect e) where
  x i := by
    rw [State.readX, withEffect_x]
    split
    · rfl
    · next h =>
      have h : 0 ≠ i.val := fun h' => h (Fin.ext h'.symm)
      rw [Fin.getElem_fin, Vector.getElem_set_ne _ _ h, Vector.getElem_map]
      rfl
  pc := rfl
  fp := rfl
  frame := rfl

/-- Everything a base instruction that goes on can do (41_base_isa_interface.md R190 to R197): an
exception; its own effect, where its class is one that computes or loads; a store and its own effect. -/
theorem execBase_effects (isa : BaseIsa) (w : BitVec 32) (c : BaseClass) (s t : State)
    (h : execBase isa w c s = .next t) :
    (∃ e va, t = takeException e s.pc va s) ∨
    (c ≠ .systemCall ∧ c ≠ .breakpoint ∧ ∃ loaded, t = s.withEffect (baseEffect isa w s loaded)) ∨
    (c ≠ .systemCall ∧ c ≠ .breakpoint ∧ ∃ va n d m, memWrite s va n d = .ok m ∧
      t = m.withEffect (baseEffect isa w s 0)) := by
  have load (n : Width) (h : execLoad isa w n s = .next t) :
      (∃ e va, t = takeException e s.pc va s) ∨
      ∃ loaded, t = s.withEffect (baseEffect isa w s loaded) := by
    unfold execLoad at h
    split at h
    · exact .inl ⟨_, _, (Host.Outcome.next.inj h).symm⟩
    · cases h
    · exact .inr ⟨_, complete_next _ _ _ h⟩
  have store (n : Width) (h : execStore isa w n s = .next t) :
      (∃ e va, t = takeException e s.pc va s) ∨
      ∃ va n d m, memWrite s va n d = .ok m ∧ t = m.withEffect (baseEffect isa w s 0) := by
    unfold execStore at h
    split at h
    · exact .inl ⟨_, _, (Host.Outcome.next.inj h).symm⟩
    · cases h
    · next m hm => exact .inr ⟨_, _, _, m, hm, complete_next _ _ _ h⟩
  have other (h : execOther isa w s = .next t) :
      ∃ loaded, t = s.withEffect (baseEffect isa w s loaded) := ⟨0, complete_next _ _ _ h⟩
  cases c with
  | floatingPoint access =>
    simp only [execBase, execFloatingPoint] at h
    split at h
    · split at h
      · exact .inr (.inl ⟨nofun, nofun, other h⟩)
      · exact (load _ h).imp_right fun h => .inl ⟨nofun, nofun, h⟩
      · exact (store _ h).imp_right fun h => .inr ⟨nofun, nofun, h⟩
    · exact .inl ⟨_, _, (Host.Outcome.next.inj h).symm⟩
  | systemCall => exact .inl ⟨_, _, (Host.Outcome.next.inj h).symm⟩
  | breakpoint => exact .inl ⟨_, _, (Host.Outcome.next.inj h).symm⟩
  | load n => exact (load n h).imp_right fun h => .inl ⟨nofun, nofun, h⟩
  | store n => exact (store n h).imp_right fun h => .inr ⟨nofun, nofun, h⟩
  | other => exact .inr (.inl ⟨nofun, nofun, other h⟩)

/-- The same by what moved the state. -/
theorem execBase_cases (isa : BaseIsa) (w : BitVec 32) (c : BaseClass) (s t : State)
    (h : execBase isa w c s = .next t) :
    (∃ e va, t = takeException e s.pc va s) ∨
    (∃ v, t = s.withEffect v) ∨
    (∃ va n d m v, memWrite s va n d = .ok m ∧ t = m.withEffect v) := by
  rcases execBase_effects isa w c s t h with h | ⟨-, -, l, h⟩ | ⟨-, -, va, n, d, m, hm, h⟩
  · exact .inl h
  · exact .inr (.inl ⟨_, h⟩)
  · exact .inr (.inr ⟨va, n, d, m, _, hm, h⟩)

/-- Everything the fetch and execution of the word at `pc` can do (60_exceptions.md R237): an exception
of its own, one of the three instructions, or a base instruction. -/
theorem execAtPc_cases (isa : Isa) (s t : State) (h : execAtPc isa s = .next t) :
    (∃ e va, t = takeException e s.pc va s) ∨
    (∃ w i, fetch s = .ok w ∧ isa.privileged w = some i ∧ exec i s = .next t) ∨
    (∃ w c, fetch s = .ok w ∧ isa.decode s.rv64InForce w = .base c ∧
      execBase isa.base w c s = .next t) := by
  unfold execAtPc at h
  split at h
  · exact .inl ⟨_, _, (Host.Outcome.next.inj h).symm⟩
  · cases h
  · next w hw =>
    split at h
    · exact .inl ⟨_, _, (Host.Outcome.next.inj h).symm⟩
    · next i hi =>
      refine .inr (.inl ⟨w, i, hw, ?_, h⟩)
      unfold Isa.decode at hi
      split at hi
      · next j hj => cases hi; exact hj
      · split at hi <;> cases hi
    · next c hc => exact .inr (.inr ⟨w, c, hw, hc, h⟩)

/-- Everything a processor move that goes on can do (60_exceptions.md R237). -/
theorem cpuMove_cases (isa : Isa) (b : Bool) (s t : State) (h : cpuMove isa b s = .next t) :
    s.errmode = false ∧ s.mixedWidth = false ∧
    ((∃ i, b = true ∧ s.leastQualifying = some i ∧
        t = takeException (.interrupt i) s.pc 0 s) ∨
      execAtPc isa s = .next t) := by
  unfold cpuMove at h
  split at h
  · cases h
  · next he =>
    split at h
    · cases h
    · next hm =>
      refine ⟨by simpa using he, by simpa using hm, ?_⟩
      split at h
      · next i hi =>
        cases b
        · cases hi
        · exact .inl ⟨i, rfl, hi, (Host.Outcome.next.inj h).symm⟩
      · exact .inr h

/-- Everything a processor move that goes on can do, by what moved the state. -/
theorem cpuMove_effects (isa : Isa) (b : Bool) (s t : State) (h : cpuMove isa b s = .next t) :
    (∃ e va, t = takeException e s.pc va s) ∨
    (∃ w i, fetch s = .ok w ∧ isa.privileged w = some i ∧ exec i s = .next t) ∨
    (∃ v, t = s.withEffect v) ∨
    (∃ va n d m v, memWrite s va n d = .ok m ∧ t = m.withEffect v) := by
  obtain ⟨-, -, ⟨i, -, -, ht⟩ | hx⟩ := cpuMove_cases isa b s t h
  · exact .inl ⟨_, _, ht⟩
  · rcases execAtPc_cases isa s t hx with hx | hx | ⟨w, c, -, -, hx⟩
    · exact .inl hx
    · exact .inr (.inl hx)
    · rcases execBase_cases isa.base w c s t hx with hx | hx
      · exact .inl hx
      · exact .inr (.inr hx)

/-- Everything a step can do: the head of the agenda, or a tick and a processor move (log 21). -/
theorem stepWith_cases (isa : Isa) (s : State) :
    (∃ e rest, s.agenda = e :: rest ∧
      stepWith isa s = applyEvent isa e { s with agenda := rest }) ∨
    (s.agenda = [] ∧ stepWith isa s = cpuMove isa true (tick s)) := by
  unfold stepWith
  cases h : s.agenda with
  | nil => exact .inr ⟨rfl, rfl⟩
  | cons e rest => exact .inl ⟨e, rest, rfl, rfl⟩

/-- Taking the head of the agenda changes nothing a fetch reads. -/
theorem fetch_withAgenda (s : State) (rest : List Event) :
    fetch { s with agenda := rest } = fetch s :=
  fetch_congr ⟨rfl, rfl, rfl, rfl, rfl, rfl⟩ rfl rfl

/-- A tick changes nothing a fetch reads. -/
theorem fetch_tick (s : State) : fetch (tick s) = fetch s :=
  fetch_congr ⟨rfl, rfl, rfl, rfl, rfl, rfl⟩ rfl rfl

/-- The word at `pc` is one of the three instructions: the processor performs it. -/
theorem execAtPc_of_privileged (isa : Isa) (s : State) (w : BitVec 32) (i : Instr)
    (hf : fetch s = .ok w) (hp : isa.privileged w = some i) : execAtPc isa s = exec i s := by
  simp [execAtPc, hf, Isa.decode, hp]

/-- A move that defers every interrupt is the execution of the word at `pc`. -/
theorem cpuMove_defer (isa : Isa) (s : State) (he : s.errmode = false)
    (hm : s.mixedWidth = false) : cpuMove isa false s = execAtPc isa s := by
  simp [cpuMove, he, hm]

/-- A move with no interrupt that qualifies is the execution of the word at `pc`. -/
theorem cpuMove_of_none (isa : Isa) (s : State) (b : Bool) (he : s.errmode = false)
    (hm : s.mixedWidth = false) (hq : s.leastQualifying = none) :
    cpuMove isa b s = execAtPc isa s := by
  cases b <;> simp [cpuMove, he, hm, hq]

end Sys2Proof.Machine
end

