-- ==== Sys2Proof/Laws/Decode.lean ====
section
/-! SUPPORT. The operands of an encoding: numbers and names of control registers, and the two five-bit
fields of a word. -/

namespace Sys2Proof

/-- A number names the register that has it (10_state.md R28). -/
theorem Pcr.number_ofNumber (n : Fin 32) : (Pcr.ofNumber n).number = n := by
  revert n; decide

/-- A well-formed operand is the register its number names. -/
theorem Pcr.ofNumber_number (cr : Pcr) (h : cr.wellFormed = true) : Pcr.ofNumber cr.number = cr := by
  cases cr with
  | unused n => revert n; decide
  | _ => rfl

theorem Pcr.wellFormed_ofNumber (n : Fin 32) : (Pcr.ofNumber n).wellFormed = true := by
  revert n; decide

/-- Splitting a word into its bytes and joining them gives the word (30_encoding.md R141). -/
theorem decodeBytes_wordBytes (w : BitVec 32) (rest : List Byte) :
    decodeBytes (wordBytes w ++ rest) =
      match decodeWord w with
      | some i => .ok (i, rest)
      | none => .error (.noRow w) := by
  have join : (w.extractLsb' 24 8 ++ w.extractLsb' 16 8 ++ w.extractLsb' 8 8 ++
      w.extractLsb' 0 8 : BitVec 32) = w := by
    apply BitVec.eq_of_getLsbD_eq
    intro i hi
    simp only [BitVec.getLsbD_append, BitVec.getLsbD_extractLsb']
    by_cases h0 : i < 8
    · simp [h0]
    · by_cases h1 : i < 16
      · have : i - 8 < 8 := by omega
        simp [h0, this, show 8 + (i - 8) = i by omega]
      · by_cases h2 : i < 24
        · have h3 : ¬ i - 8 < 8 := by omega
          have h4 : i - 8 - 8 < 8 := by omega
          simp [h0, h3, h4, show 16 + (i - 8 - 8) = i by omega]
        · have h3 : ¬ i - 8 < 8 := by omega
          have h4 : ¬ i - 8 - 8 < 8 := by omega
          have h5 : i - 8 - 8 - 8 < 8 := by omega
          simp [h0, h3, h4, h5, show 24 + (i - 8 - 8 - 8) = i by omega]
  cases h : decodeWord w <;>
    simp only [wordBytes, List.cons_append, List.nil_append, decodeBytes, join, h]

/-- The host's numbering of a row's bits is the word's own (spec/opcode_table.json). -/
theorem decodeTableWord_eq (w : Nat) :
    decodeTableWord 32 w = decodeWord (BitVec.ofNat 32 (w % 2 ^ 32)) := by
  unfold decodeTableWord
  have := decodeBytes_wordBytes (BitVec.ofNat 32 (w % 2 ^ 32)) []
  rw [List.append_nil] at this
  rw [this]
  cases decodeWord (BitVec.ofNat 32 (w % 2 ^ 32)) <;> rfl

end Sys2Proof
end

