-- ==== Sys2Proof/Laws/Invariant.lean ====
section
/-! SUPPORT. The invariant under each shared operation. -/

namespace Sys2Proof.Machine

/-- The fields of `status` after a write are legal (10_state.md R42, R43). -/
theorem statusOfWord_legal (c : Config) (v : BitVec 32) :
    c.s64Of (statusOfWord c v).s64 = (statusOfWord c v).s64 ∧
    c.u64Of (statusOfWord c v).s64 (statusOfWord c v).u64 = (statusOfWord c v).u64 ∧
    c.efOf (statusOfWord c v).ef = (statusOfWord c v).ef := by
  simp [statusOfWord]

/-- `S64 = 0` implies `U64 = 0` wherever `U64` holds a value it can be given (10_state.md R43). -/
theorem State.StatusLegal.ofHardwired {s : State} (h1 : s.conf.s64Of s.status.s64 = s.status.s64)
    (h2 : s.conf.u64Of s.status.s64 s.status.u64 = s.status.u64)
    (h3 : s.conf.efOf s.status.ef = s.status.ef) : s.StatusLegal :=
  ⟨h1, h2, h3, fun h => by rw [h] at h2; exact h2.symm⟩

theorem inv_statusOfWord {s : State} (v : BitVec 32) (h : s.Inv) :
    ({ s with status := statusOfWord s.conf v } : State).Inv := by
  obtain ⟨h1, h2, h3⟩ := statusOfWord_legal s.conf v
  exact { h with status := State.StatusLegal.ofHardwired h1 h2 h3
                 widths := { h.widths with } }

theorem inv_withAgenda {s : State} (rest : List Event) (h : s.Inv) :
    ({ s with agenda := rest } : State).Inv :=
  { h with status := { h.status with }, widths := { h.widths with } }

theorem inv_tick {s : State} (h : s.Inv) : (tick s).Inv :=
  { h with status := { h.status with }, widths := { h.widths with } }

theorem inv_hostWrite {s : State} (v : Word) (h : s.Inv) : (hostWrite v s).Inv :=
  { h with status := { h.status with }
           widths := { h.widths with fromhost := s.conf.fit_fit v } }

theorem inv_setLine {s : State} (i : Fin 7) (b : Bool) (h : s.Inv) : (setLine i b s).Inv :=
  { h with status := { h.status with }
           widths := { h.widths with }
           lines := by simp only [setLine]; rw [BitVec.and_assoc, BitVec.and_self] }

theorem inv_withPc {s : State} (v : Word) (hv : s.conf.Fits v) (h : s.Inv) : (s.withPc v).Inv :=
  { h with status := { h.status with }, widths := { h.widths with pc := hv } }

theorem inv_draws {s : State} (n : Nat) (h : s.Inv) : ({ s with draws := n } : State).Inv :=
  { h with status := { h.status with }, widths := { h.widths with } }

theorem inv_writeX {s : State} (i : RegIdx) (v : Word) (h : s.Inv) : (s.writeX i v).Inv := by
  unfold State.writeX
  split
  · exact h
  · next hi =>
    have h0 : i.val ≠ 0 := fun h => hi (Fin.ext h)
    have hx0 : (s.x.set i.val (s.conf.fit v))[0] = 0 := by simpa [h0] using h.x0
    have hx : ∀ j : Fin 32, s.conf.Fits (s.x.set i.val (s.conf.fit v))[j] := by
      intro j
      by_cases hj : i.val = j.val
      · simp [Config.Fits, hj]
      · simpa [hj] using h.widths.x j
    exact { h with status := { h.status with }, x0 := hx0, widths := { h.widths with x := hx } }

/-- The x registers a base instruction or reset leaves fit, and `x0` is zero. -/
theorem fits_map_set (c : Config) (x : Vector Word 32) :
    (∀ i : Fin 32, c.Fits ((x.map c.fit).set 0 0)[i]) ∧ ((x.map c.fit).set 0 0)[0] = 0 := by
  refine ⟨fun i => ?_, by simp⟩
  by_cases hi : 0 = i.val
  · simp [Config.Fits, ← hi]
  · simp [Config.Fits, hi]

theorem inv_withEffect {s : State} (v : BaseEffect) (h : s.Inv) : (s.withEffect v).Inv :=
  { h with status := { h.status with }
           widths := { h.widths with x := (fits_map_set s.conf v.x).1, pc := s.conf.fit_fit _ }
           x0 := (fits_map_set s.conf v.x).2 }

theorem inv_physWrite {s t : State} (pa n : Nat) (v : Word) (h : s.Inv)
    (ht : physWrite s pa n v = some t) : t.Inv := by
  obtain ⟨-, rfl⟩ := physWrite_eq_some s t pa n v ht
  refine { h with status := { h.status with }, widths := { h.widths with }, mem := ?_, storedBytes := ?_, storedUnderVm := ?_ }
  · exact Memory.wf_writeLE s.mem h.mem pa n v
  · exact pairwise_insertAddrs pa n _ h.storedBytes
  · show (if s.status.vm then _ else _ : List Nat).Pairwise (· < ·)
    split
    · exact pairwise_insertAddrs pa n _ h.storedUnderVm
    · exact h.storedUnderVm

theorem inv_memWrite {s t : State} (va : Word) (w : Width) (v : Word) (h : s.Inv)
    (ht : memWrite s va w v = .ok t) : t.Inv := by
  obtain ⟨-, pa, -, hp⟩ := memWrite_ok s t va w v ht
  exact inv_physWrite pa _ v h hp

theorem inv_writePcr {s : State} (cr : Pcr) (v : Word) (h : s.Inv) : (writePcr cr v s).Inv := by
  cases cr <;> simp only [writePcr]
  case status => exact inv_statusOfWord _ h
  case count =>
    unfold writeCount
    split <;> exact { h with status := { h.status with }, widths := { h.widths with } }
  case tohost =>
    refine { h with status := { h.status with }, widths := { h.widths with tohost := s.conf.fit_fit v, output := ?_ } }
    intro u hu
    rcases List.mem_append.mp hu with hu | hu
    · exact h.widths.output u hu
    · rw [List.mem_singleton.mp hu]; exact s.conf.fit_fit v
  case evec =>
    exact { h with status := { h.status with }
                   widths := { h.widths with evec := s.conf.fit_fit _ }
                   evecAligned := s.conf.fit_aligned v }
  case ptbr =>
    exact { h with status := { h.status with }
                   widths := { h.widths with ptbr := s.conf.fit_fit _ } }
  case k0 =>
    exact { h with status := { h.status with }
                   widths := { h.widths with k0 := s.conf.fit_fit _ } }
  case k1 =>
    exact { h with status := { h.status with }
                   widths := { h.widths with k1 := s.conf.fit_fit _ } }
  all_goals exact { h with status := { h.status with }, widths := { h.widths with } }

theorem inv_enterErrorMode {s : State} (h : s.Inv) : (enterErrorMode s).Inv := by
  obtain ⟨h1, h2, h3⟩ := statusOfWord_legal s.conf (low32 (Config.freeWord s.draws))
  exact { h with
    status := State.StatusLegal.ofHardwired h1 h2 h3
    widths := { h.widths with epc := s.conf.fit_fit _, badvaddr := s.conf.fit_fit _
                              pc := s.conf.fit_fit _ } }

/-- An exception keeps the invariant when the values it records fit, as the `pc` and a fitted faulting
address do. -/
theorem inv_takeException {s : State} (c : Cause) (e va : Word) (he : s.conf.Fits e)
    (hva : s.conf.Fits va) (h : s.Inv) : (takeException c e va s).Inv := by
  rcases takeException_cases c e va s with ⟨-, ht⟩ | ⟨-, ht⟩ <;> rw [ht]
  · refine { h with
      status := { h.status with }
      widths := { h.widths with epc := he, badvaddr := ?_, pc := h.widths.evec } }
    show s.conf.Fits (if c.recordsAddress then va else _)
    split
    · exact hva
    · exact s.conf.fit_fit _
  · exact inv_enterErrorMode h

theorem inv_returnFromException {s : State} (h : s.Inv) : (returnFromException s).Inv :=
  { h with status := { h.status with }, widths := { h.widths with pc := h.widths.epc } }

/-- The implementation is the same after every operation. -/
theorem takeException_conf (c : Cause) (e va : Word) (s : State) :
    (takeException c e va s).conf = s.conf := by
  rw [takeException_frame]

theorem memWrite_conf (s t : State) (va : Word) (w : Width) (v : Word)
    (h : memWrite s va w v = .ok t) : t.conf = s.conf := by
  obtain ⟨-, pa, -, hp⟩ := memWrite_ok s t va w v h
  obtain ⟨-, rfl⟩ := physWrite_eq_some s t pa _ v hp
  rfl

theorem inv_resetWith (c : Config) (u : UndefinedAtReset) : (resetWith c u).Inv where
  mem := Memory.wf_ofCells u.mem
  x0 := (fits_map_set c u.x).2
  widths :=
    { x := (fits_map_set c u.x).1
      pc := by
        show c.fit 0x2000#64 = 0x2000#64
        unfold Config.fit; split <;> decide
      epc := c.fit_fit _
      badvaddr := c.fit_fit _
      evec := c.fit_fit _
      ptbr := c.fit_fit _
      k0 := c.fit_fit _
      k1 := c.fit_fit _
      tohost := c.fit_zero
      fromhost := c.fit_fit _
      output := by intro v hv; cases hv }
  evecAligned := c.fit_aligned _
  status := State.StatusLegal.ofHardwired (c.s64Of_providesRv64) (c.u64Of_u64Of _ _) (c.efOf_efOf _)
  lines := by
    show u.lines &&& c.extIrq &&& c.extIrq = u.lines &&& c.extIrq
    rw [BitVec.and_assoc, BitVec.and_self]
  storedBytes := List.Pairwise.nil
  storedUnderVm := List.Pairwise.nil

end Sys2Proof.Machine
end

