-- ==== Sys2Proof/Laws/PerInstr.lean ====
section
/-! SUPPORT. Per-instruction facts about the encoding. -/

namespace Sys2Proof.Laws

/-- Every encoded instruction carries the opcode 1111011 in bits 6 to 0 (30_encoding.md R143). -/
def Opcode.Statement (i : Instr) : Prop :=
  (encodeWord i).extractLsb' 0 7 = 0b1111011#7

/-- A field placed at bit 7 or above leaves the opcode alone. -/
theorem Opcode.of_placed (bits : BitVec 32) (n m : Fin 32) (p q : Nat) (hp : 7 ≤ p) (hq : 7 ≤ q)
    (h : bits.extractLsb' 0 7 = 0b1111011#7) :
    (bits ||| place5 n p ||| place5 m q).extractLsb' 0 7 = 0b1111011#7 := by
  rw [← h]
  apply BitVec.eq_of_getLsbD_eq
  intro i hi
  have h1 : i < p := by omega
  have h2 : i < q := by omega
  have h3 : i < 32 := by omega
  simp [place5, BitVec.getLsbD_extractLsb', h1, h2, h3]

theorem Opcode.mfpcr (rd : RegIdx) (cr : Pcr) : Opcode.Statement (.mfpcr rd cr) :=
  Opcode.of_placed _ _ _ _ _ (by decide) (by decide) (by decide)

theorem Opcode.mtpcr (rs : RegIdx) (cr : Pcr) : Opcode.Statement (.mtpcr rs cr) :=
  Opcode.of_placed _ _ _ _ _ (by decide) (by decide) (by decide)

theorem Opcode.eret : Opcode.Statement .eret := by
  unfold Opcode.Statement; decide

end Sys2Proof.Laws
end

