-- ==== Sys2Proof/Tests/Slice0.lean ====
section
/-! SUPPORT. Tests. Expected values are those of 95_test_vectors.md, whose vector each test names, or a
hand calculation from the rule named. `witness_<Obligation>` gives a state and operands that meet the
hypotheses of a statement together, one clause a conjunct. -/

namespace Sys2Proof.Tests

open Sys2Proof.Machine

/-! ## Helpers -/

/-- The step goes on, to a state with the property. -/
def nextIs (r : Result) (p : State → Bool) : Bool :=
  match r with
  | .next t => p t
  | .fault _ => false
  | .refused _ => false

/-- The step is refused for this reason. -/
def refusedFor (r : Result) (reason : Refusal) : Bool :=
  match r with
  | .next _ => false
  | .fault _ => false
  | .refused q => q = reason

/-- A canonical memory of 32-bit words. -/
def words (l : List (Nat × BitVec 32)) : Memory :=
  l.foldl (fun m p => m.writeLE p.1 4 (p.2.setWidth 64)) []

/-- A base ISA of a few made-up words, to run the classes: words 1 to 6 are a system call, a breakpoint,
a 4-byte load, a 4-byte store, a floating-point operation and another instruction. -/
def toyBase : BaseIsa :=
  { classify := fun _ w =>
      match w.toNat with
      | 1 => some .systemCall
      | 2 => some .breakpoint
      | 3 => some (.load .four)
      | 4 => some (.store .four)
      | 5 => some (.floatingPoint none)
      | 6 => some .other
      | _ => none
    address := fun _ _ v => v.x[1]
    storeData := fun _ _ v => v.x[2]
    result := fun _ _ v loaded => { x := v.x.set 3 loaded, pc := v.pc.toNat + 4, fp := v.fp } }

def toy : Isa := { privileged := decodeWord, base := toyBase }

def conf64 : Config := { Config.default with variant := .rv64sOnly, hasFpu := true }

/-- Supervisor mode with every interrupt enabled, as in 95_test_vectors.md V-EX. -/
def sup : State :=
  { State.reset with
    pc := 0x10040
    evec := 0x3000
    status := { State.reset.status with im := 0xFF, et := true } }

/-- The same in user mode. -/
def usr : State :=
  { sup with status := { sup.status with s := false } }

/-- Supervisor mode on a 64-bit implementation. -/
def sup64 : State :=
  { sup with conf := conf64, status := { sup.status with s64 := true, u64 := true } }

def setX (s : State) (i : Fin 32) (v : Word) : State :=
  { s with x := s.x.set i v }

/-- The tables of 95_test_vectors.md V-TR32. -/
def tables32 : Memory :=
  words [(0x10004, 0x00011002), (0x1000C, 0x80155301), (0x11004, 0x12345041),
    (0x11008, 0x22222002), (0x1100C, 0x33333083)]

def sup32vm : State :=
  { sup with mem := tables32, ptbr := 0x10000, status := { sup.status with vm := true } }

def usr32vm : State :=
  { sup32vm with status := { sup32vm.status with s := false } }

/-- The tables of 95_test_vectors.md V-TR64. -/
def tables64 : Memory :=
  words [(0x100000, 0x00102002), (0x101000, 0x0000E281), (0x101004, 0x00000002),
    (0x102008, 0x00104002), (0x102010, 0x087FE071), (0x104008, 0x2468A301)]

def sup64vm : State :=
  { sup64 with mem := tables64, ptbr := 0x100000, status := { sup64.status with vm := true } }

def usr64vm : State :=
  { sup64vm with status := { sup64vm.status with s := false } }

/-! ## Well-formedness: the check refuses an ill-formed operand of each instruction that has one -/

theorem test_wf_mfpcr_named_number : (Instr.mfpcr 0 (.unused 3)).wellFormed = false := by decide
theorem test_wf_mtpcr_named_number : (Instr.mtpcr 0 (.unused 16)).wellFormed = false := by decide
theorem test_wf_mfpcr_unused : (Instr.mfpcr 31 (.unused 31)).wellFormed = true := by decide
theorem test_wf_eret : Instr.eret.wellFormed = true := by decide

/-! ## Decoding: words written out bit by bit from 30_encoding.md R143 -/

/-- `rd = 2`, `cr = 6`, twelve zeros, funct3 010, opcode 1111011 (V-ENC). -/
theorem test_decode_mfpcr :
    decodeWord 0b00010_00110_000000000000_010_1111011#32 = some (.mfpcr 2 .cause) ∧
    decodeWord 0xFC40017B = some (.mfpcr 31 .fromhost) := by decide

/-- Five zeros, `cr = 13`, `rs = 31`, zeros, funct3 011, opcode 1111011 (V-ENC). -/
theorem test_decode_mtpcr :
    decodeWord 0b00000_01101_11111_0000000_011_1111011#32 = some (.mtpcr 31 .k1) ∧
    decodeWord 0x01C201FB = some (.mtpcr 1 .ptbr) := by decide

theorem test_decode_eret : decodeWord 0b0000000000000000000000_100_1111011#32 = some .eret := by
  decide

/-- The negative words of V-ENC. -/
theorem test_decode_rejects :
    decodeWord 0x0000037B = none ∧ decodeWord 0x0000057B = none ∧ decodeWord 0x0800027B = none ∧
    decodeWord 0x080001FB = none := by decide

/-- The bytes of V-ENC, in ascending order. -/
theorem test_encode_bytes : encode (.mfpcr 2 .cause) = [0x7B, 0x01, 0x80, 0x11] := by decide

theorem test_decode_truncated : decodeBytes [0x7B, 0x02, 0x00] = .error .truncated := by decide

/-! ## The three instructions -/

/-- V-MF 2. -/
theorem test_mfpcr_status : nextIs (exec (.mfpcr 3 .status) sup)
    (fun t => t.readX 3 == 0xFF21 && t.pc == 0x10044) = true := by decide

/-- V-MF 6 with `PCR32_EXT = sign`. -/
theorem test_mfpcr_sign_extends :
    nextIs (exec (.mfpcr 5 .count)
        { sup64 with conf := { conf64 with pcr32Ext := .sign }, count := 0x80000001 })
      (fun t => t.readX 5 == 0xFFFFFFFF80000001) = true := by decide

/-- V-MT 2. -/
theorem test_mtpcr_evec : nextIs (exec (.mtpcr 1 .evec) (setX sup 1 0xFFFFFFFE))
    (fun t => t.evec == 0xFFFFFFFC) = true := by decide

/-- V-MT 4: the same value still clears the request. -/
theorem test_mtpcr_compare :
    nextIs (exec (.mtpcr 2 .compare) (setX { sup with compare := 7, timerIp := true } 2 7))
      (fun t => t.compare == 7 && ! t.timerIp) = true := by decide

/-- V-ER 1. -/
theorem test_eret :
    nextIs (exec .eret { sup with epc := 0x10040, status := { sup.status with et := false } })
      (fun t => statusWord .default t.status == 0xFF01 && t.pc == 0x10040) = true := by decide

/-- V-ER 4. -/
theorem test_eret_user : nextIs (exec .eret usr)
    (fun t => statusWord .default t.status == 0xFF20 && t.cause == 3 && t.epc == 0x10040 &&
      t.pc == 0x3000) = true := by decide

/-- The instruction placed where the next fetch reads is the one the next step runs (V-ENC). -/
theorem test_placed_runs :
    nextIs (step (State.reset.withFetchWord 32 0x0000027B)) (fun t => t.status.et) = true ∧
    nextIs (step (State.reset.withFetchWord 32 0x000001FB)) (fun t => ! t.status.s) = true ∧
    nextIs (step (State.reset.withFetchWord 32 0x0000017B)) (fun t => t.pc == 0x2004) = true := by
  decide

/-! ## The status word (V-ST 1, 4, 8) -/

theorem test_status_reads_back :
    statusWord .default (statusOfWord .default 0xFFFFFFFF) = 0x0001FF31 ∧
    statusWord .default (statusOfWord conf64 0) = 0xC0 ∧
    statusWord .default (statusOfWord
      { Config.default with variant := .rv32sAndRv64s, hasRv32User := true } 0xC0) = 0xC0 := by
  decide

/-- The value of Figure 14 (30_encoding.md R153), and V-ST 3 and 5. -/
theorem test_figure14_status :
    figure14Status .default = 0xFFE1 ∧
    statusWord .default (statusOfWord .default 0xFFE1) = 0xFF21 ∧
    statusWord .default (statusOfWord conf64 0xFFE1) = 0xFFE1 := by decide

/-- `li` and `j` of Figure 14 (P0). -/
theorem test_assembler_forms :
    nextIs (execAssemblerForm (.li 1 0xFFE1) 0x2010 sup)
      (fun t => t.readX 1 == 0xFFE1 && t.pc == 0x2010) = true ∧
    nextIs (execAssemblerForm (.j 0x4000) 0x2010 sup) (fun t => t.pc == 0x4000) = true := by
  decide +kernel

/-- 10_state.md R26: an instruction at the last word of the address space goes on nowhere but by a jump, and
a target below zero is outside too. -/
theorem test_pc_wrap_refused :
    refusedFor (execBase toyBase 6 .other { sup with pc := 0xFFFFFFFC }) .pcWrap = true ∧
    refusedFor (exec (.mfpcr 1 .k0) { sup with pc := 0xFFFFFFFC }) .pcWrap = true ∧
    refusedFor (execAssemblerForm (.li 1 0) (-4) sup) .pcWrap = true ∧
    nextIs (execAssemblerForm (.j 0) 0x100000000 { sup with pc := 0xFFFFFFFC }) (fun t => t.pc == 0) =
      true := by decide +kernel

/-- Line 3 of Figure 14 (30_encoding.md R151). -/
theorem test_assembly : assembly (.mtpcr 1 .evec) = "mtpcr x1, cr3" := by decide

/-! ## Exceptions, interrupts, the timer and the host -/

/-- V-EX 1. -/
theorem test_system_call : nextIs (execBase toyBase 1 .systemCall usr)
    (fun t => statusWord .default t.status == 0xFF20 && t.epc == 0x10040 && t.cause == 6 &&
      t.pc == 0x3000) = true := by decide

/-- V-EX 2. -/
theorem test_breakpoint : nextIs (execBase toyBase 2 .breakpoint sup)
    (fun t => statusWord .default t.status == 0xFF30 && t.cause == 7) = true := by decide

/-- V-EX 5: a user store the tables of V-TR32 forbid. -/
theorem test_store_fault : nextIs (execBase toyBase 4 (.store .four) (setX usr32vm 1 0x401ABC))
    (fun t => t.cause == 11 && t.badvaddr == 0x401ABC && t.epc == 0x10040 && t.mem == tables32) = true := by
  decide

/-- V-PRI 7: the line of least index goes first, and its request stays. -/
theorem test_interrupt_priority :
    nextIs (cpuMove toy true
        { sup with lines := 4, timerIp := true, conf := { Config.default with extIrq := 4 } })
      (fun t => t.cause == 18 && t.ip == 0x84) = true := by decide

/-- V-PRI 8: a masked line of higher priority does not block. -/
theorem test_interrupt_masked :
    nextIs (cpuMove toy true
        { sup with lines := 4, timerIp := true, status := { sup.status with im := 0x80 } })
      (fun t => t.cause == 23) = true := by decide

/-- V-TMR 1, 3 and 4. -/
theorem test_tick :
    (tick { sup with count := 99, compare := 100 }).timerIp = true ∧
    (tick { sup with count := 0xFFFFFFFF, compare := 0 }).timerIp = true ∧
    (tick { sup with count := 100, compare := 100 }).timerIp = false := by decide

/-- V-EM 3, and V-EM 4: error mode, and nothing after it. -/
theorem test_error_mode :
    nextIs (exec (.mfpcr 3 .status) { usr with status := { usr.status with et := false } })
      (fun t => t.errmode) = true ∧
    cpuMove toy true { sup with errmode := true } = .fault .errorMode := ⟨by decide, by rfl⟩

/-- V-HOST 3. -/
theorem test_host_write :
    nextIs (stepWith toy { sup with agenda := [.hostWrite 0x55] }) (fun t => t.fromhost == 0x55) = true := by
  decide

/-! ## Translation -/

/-- V-TR32 1, 2, 4, 9, 10 and 13. -/
theorem test_translate_32 :
    translateAddr usr32vm 0x401ABC .load false = .ok 0x12345ABC ∧
    translateAddr sup32vm 0x401ABC .load true = .trap .loadAccessFault 0x401ABC ∧
    translateAddr sup32vm 0xC01ABC .load true = .ok 0x80001ABC ∧
    translateAddr sup32vm 0x402ABC .load true = .trap .loadAccessFault 0x402ABC ∧
    translateAddr sup32vm 0x403ABC .fetch true = .ok 0x33333ABC ∧
    translateAddr { usr32vm with ptbr := 0x10004 } 0x401ABC .load false = .refused .misalignedPtbr := by
  decide

/-- V-TR64 1, 5, 7, 8 and 12. -/
theorem test_translate_64 :
    translateAddr sup64vm 0x802468 .load true = .ok 0x2468A468 ∧
    translateAddr sup64vm 0xFFFFFC0000802468 .fetch true = .ok 0x200802468 ∧
    translateAddr usr64vm 0x1002468 .store false = .ok 0x08002468 ∧
    translateAddr sup64vm 0x40000000000 .load true = .trap .loadAccessFault 0x40000000000 ∧
    translateAddr sup64vm 0xFFFFFBFFFFFFFFF8 .load true =
      .trap .loadAccessFault 0xFFFFFBFFFFFFFFF8 := by decide

/-- V-AL 6 and 7: alignment before translation. -/
theorem test_alignment_first :
    memRead sup32vm 0x401ABE .four = .trap .loadMisaligned 0x401ABE ∧
    memRead sup64vm 0x40000000004 .eight = .trap .loadMisaligned 0x40000000004 := by decide

/-- Little-endian bytes, and the canonical form: a zero byte is not listed (20_memory.md R84, R85). -/
theorem test_memory_bytes :
    Memory.writeLE [] 0x100 4 0x11002233 = [(0x100, 0x33), (0x101, 0x22), (0x103, 0x11)] ∧
    Memory.readLE [(0x100, 0x33), (0x101, 0x22), (0x103, 0x11)] 0x100 4 = 0x11002233 := by decide

/-! ## Witnesses -/

theorem witness_DecodeOfEncode :
    (Instr.mfpcr 31 (.unused 31)).wellFormed = true ∧ (Instr.mtpcr 31 (.unused 8)).wellFormed = true ∧
    Instr.eret.wellFormed = true := by decide

theorem witness_EncodeOfDecode : decodeWord 0xFFC0017B = some (.mfpcr 31 (.unused 31)) := by decide

theorem witness_PrivilegedInstructionsTrapInUserMode :
    usr.status.s = false ∧ usr.status.et = true := by decide

/-- Supervisor mode and room to move on, as the statements about `mfpcr` and `mtpcr` ask: the last `pc`
from which the default implementation goes on, and the one after it where an implementation wraps. -/
theorem witness_supervisor_can_advance :
    sup.status.s = true ∧ sup.CanAdvance ∧ ({ sup with pc := 0xFFFFFFF8 } : State).CanAdvance ∧
    ¬ ({ sup with pc := 0xFFFFFFFC } : State).CanAdvance ∧
    ({ sup with conf := { Config.default with pcWrap := .wrap }, pc := 0xFFFFFFFC } :
      State).CanAdvance := by decide

/-- Each width and each `PCR32_EXT`. -/
theorem witness_MfpcrExtends32BitRegister :
    sup.status.s = true ∧ sup.CanAdvance ∧ sup.conf.providesRv64 = false ∧
    sup64.status.s = true ∧ sup64.CanAdvance ∧ sup64.conf.providesRv64 = true ∧
    ({ conf64 with pcr32Ext := .zero } : Config).providesRv64 = true ∧
    ({ conf64 with pcr32Ext := .sign } : Config).providesRv64 = true := by decide

theorem witness_MfpcrFrame :
    sup.status.s = true ∧
    ¬ (Pcr.isUnused .status = true ∧ sup.conf.unusedPcr = .illegalInstruction) ∧
    ∃ t, exec (.mfpcr 0 .status) sup = .next t := ⟨by decide, by decide, _, rfl⟩

theorem witness_UnusedPcrFollowsPolicy :
    sup.status.s = true ∧ sup.conf.unusedPcr = .readZeroIgnoreWrite ∧ sup.CanAdvance ∧
    ({ sup with conf := { Config.default with unusedPcr := .refuse } } : State).status.s = true ∧
    ({ sup with conf := { Config.default with unusedPcr := .illegalInstruction } } :
      State).status.s = true := by decide

theorem witness_ReadOnlyPcrFollowsPolicy :
    sup.status.s = true ∧ sup.conf.roWrite = .ignored ∧ sup.CanAdvance ∧
    ({ sup with conf := { Config.default with roWrite := .refuse } } : State).status.s = true := by
  decide

theorem witness_MtpcrWritesRegister :
    sup.status.s = true ∧ sup.CanAdvance ∧
    low32 ((setX { sup with compare := 9 } 2 8).readX 2) ≠
      (setX { sup with compare := 9 } 2 8).compare := by decide

theorem witness_CountWriteMayRaiseRequest :
    sup.status.s = true ∧ sup.CanAdvance ∧
    low32 ((setX { sup with compare := 9 } 2 9).readX 2) =
      (setX { sup with compare := 9 } 2 9).compare := by decide

/-- A state of each variant. -/
theorem witness_MtpcrWritesStatusFields :
    sup.status.s = true ∧ sup.CanAdvance ∧ sup.conf.variant = .rv32sOnly ∧
    sup64.status.s = true ∧ sup64.CanAdvance ∧ sup64.conf.variant ≠ .rv32sOnly ∧
    sup64.conf.hasRv32User = false ∧
    ({ sup64 with conf := { conf64 with variant := .rv32sAndRv64s, hasRv32User := true } } :
      State).status.s = true := by decide

theorem witness_MtpcrFrame :
    sup.status.s = true ∧
    ¬ (Pcr.isUnused .k0 = true ∧ sup.conf.unusedPcr = .illegalInstruction) ∧
    ∃ t, exec (.mtpcr 0 .k0) sup = .next t := ⟨by decide, by decide, _, rfl⟩

theorem witness_EretCompletes : sup.status.s = true := by decide

theorem witness_StatusReadsBack : Config.default.statusLayout.Valid := by decide

/-- A layout at the ends of what R33 allows: bits 0, 7, 16 and 31 used. -/
theorem witness_StatusReadsBack_boundary :
    ({ et := 31, ef := 0, ps := 7, s := 16, u64 := 6, s64 := 30, vm := 17 } : StatusLayout).Valid := by
  decide

theorem sup_eq : sup = { resetWith .default .zero with
    pc := 0x10040, evec := 0x3000,
    status := { im := 0xFF, vm := false, s := true, ps := false, u64 := false, s64 := false,
                ef := false, et := true } } := by
  simp only [sup, State.reset, resetWith, UndefinedAtReset.zero]
  congr 1
  apply Vector.ext
  intro i hi
  rw [Vector.getElem_set]
  split <;> simp

theorem sup_inv : sup.Inv := by
  rw [sup_eq]
  have h := inv_resetWith .default .zero
  exact { h with evecAligned := by decide
                 widths := { h.widths with pc := by decide, evec := by decide }
                 status := ⟨by decide, by decide, by decide, by decide⟩ }

theorem witness_StatusWordRestoresFields : sup.conf.statusLayout.Valid ∧ sup.StatusLegal :=
  ⟨by decide, sup_inv.status⟩

theorem witness_PreviousModeBit :
    sup.status.et = true ∧ sup.status.s = true ∧ sup.CanAdvance ∧ StatusLayout.default.Valid := by
  decide

theorem witness_ExceptionEnableBit :
    State.reset.status.et = false ∧ sup.status.et = true ∧ sup.status.s = true ∧ sup.CanAdvance ∧
    StatusLayout.default.Valid := by decide

/-- The codes at both ends of the range that records an address, and in either mode. -/
theorem witness_ExceptionEntry :
    sup.status.et = true ∧ usr.status.et = true ∧
    Cause.loadMisaligned.code = 8 ∧ Cause.storeAccessFault.code = 11 := by decide

theorem witness_EveryExceptionGoesToSupervisor : sup.status.et = true ∧ usr.status.et = true := by
  decide

theorem witness_UnusedCodesNeverReported : sup.status.et = true := by decide

theorem witness_ErrorModeIsTerminal :
    State.reset.status.et = false ∧
    ({ sup with errmode := true } : State).errmode = true ∧
    applyEvent toy .tick { sup with errmode := true } = .next (tick { sup with errmode := true }) :=
  ⟨by decide, rfl, rfl⟩

theorem witness_EretResumesTheTrappedInstruction : usr.status.et = true ∧ sup.status.et = true := by
  decide

theorem witness_InterruptTakenBetweenInstructions :
    sup.errmode = false ∧ sup.mixedWidth = false ∧ sup.leastQualifying = none ∧
    ({ sup with lines := 1 } : State).leastQualifying = some 0 ∧
    ({ sup with timerIp := true } : State).leastQualifying = some 7 := by decide

theorem witness_EnvironmentMoves :
    ({ sup with lines := 0x41, conf := { Config.default with extIrq := 0x7F } } : State).lines &&&
        ({ sup with lines := 0x41, conf := { Config.default with extIrq := 0x7F } } : State).conf.extIrq =
      ({ sup with lines := 0x41, conf := { Config.default with extIrq := 0x7F } } : State).lines := by
  decide

/-- `mtpcr x0, cr5` with a request pending, and the fetch that reads it (V-ENC, V-MT 3). -/
def pendingAtCompareWrite : State :=
  { sup with mem := words [(0x10040, 0x014001FB)], timerIp := true, agenda := [.defer] }

theorem witness_OnlyCompareWriteClearsTheRequest :
    pendingAtCompareWrite.timerIp = true ∧
    nextIs (stepWith toy pendingAtCompareWrite) (fun t => ! t.timerIp) = true := by decide

theorem witness_UntranslatedWithoutVm :
    sup.status.vm = false ∧ sup.status.s64 = false ∧
    sup64.status.vm = false ∧ sup64.status.s64 = true ∧
    canonical 0x3FFFFFFFFFF = true ∧ canonical 0x40000000000 = false ∧
    sup64.conf.canonCheckVm0 = true ∧ ({ conf64 with canonCheckVm0 := false } : Config).canonCheckVm0 = false := by
  decide

/-- Bit 43 differs from bit 42, and bit 63 does. -/
theorem witness_NonCanonicalAddressTraps :
    sup64vm.status.s64 = true ∧ sup64vm.status.vm = true ∧
    (0x40000000000#64).getLsbD 43 ≠ (0x40000000000#64).getLsbD 42 ∧
    (0x8000000000000000#64).getLsbD 63 ≠ (0x8000000000000000#64).getLsbD 42 := by decide

/-- A leaf, a pointer and an empty entry of V-TR32. -/
theorem witness_PermissionBits :
    readPte sup32vm (pteAddress sup32vm 0xC01ABC 1 0x10000) =
      .ok { e := true, t := false, ux := false, uw := false, ur := false, sx := false, sw := true,
            sr := true, ppn := 0x80155 } ∧
    readPte sup32vm (pteAddress sup32vm 0x401ABC 1 0x10000) =
      .ok { e := false, t := true, ux := false, uw := false, ur := false, sx := false, sw := false,
            sr := false, ppn := 0x11 } := by decide

/-- Also the pointer at level 0 and the empty entry above it. -/
theorem witness_PteKindsByLevel :
    readPte sup32vm (pteAddress sup32vm 0xC01ABC 1 0x10000) =
      .ok { e := true, t := false, ux := false, uw := false, ur := false, sx := false, sw := true,
            sr := true, ppn := 0x80155 } ∧
    readPte sup32vm (pteAddress sup32vm 0x401ABC 1 0x10000) =
      .ok { e := false, t := true, ux := false, uw := false, ur := false, sx := false, sw := false,
            sr := false, ppn := 0x11 } ∧
    readPte sup32vm (pteAddress sup32vm 0x402ABC 0 0x11000) =
      .ok { e := false, t := true, ux := false, uw := false, ur := false, sx := false, sw := false,
            sr := false, ppn := 0x22222 } ∧
    readPte sup32vm (pteAddress sup32vm 0x801ABC 1 0x10000) =
      .ok { e := false, t := false, ux := false, uw := false, ur := false, sx := false, sw := false,
            sr := false, ppn := 0 } := by decide

theorem witness_Rv32sTwoLevelWalk :
    sup32vm.status.s64 = false ∧ sup32vm.status.vm = true ∧ sup32vm.ptbr.toNat % 4096 = 0 ∧
    readPte sup32vm (0x10000 + 0x401ABC / 2 ^ 22 % 1024 * 4) =
      .ok { e := false, t := true, ux := false, uw := false, ur := false, sx := false, sw := false,
            sr := false, ppn := 0x11 } := by decide

/-- Every level of V-TR64 1. -/
theorem witness_Rv64sThreeLevelWalk :
    sup64vm.status.s64 = true ∧ sup64vm.status.vm = true ∧ canonical 0x802468 = true ∧
    sup64vm.ptbr.toNat % 8192 = 0 ∧
    readPte sup64vm (0x100000 + 0x802468 / 2 ^ 33 % 1024 * 8) =
      .ok { e := false, t := true, ux := false, uw := false, ur := false, sx := false, sw := false,
            sr := false, ppn := 0x81 } ∧
    readPte sup64vm (0x81 * 8192 + 0x802468 / 2 ^ 23 % 1024 * 8) =
      .ok { e := false, t := true, ux := false, uw := false, ur := false, sx := false, sw := false,
            sr := false, ppn := 0x82 } ∧
    readPte sup64vm (0x82 * 8192 + 0x802468 / 2 ^ 13 % 1024 * 8) =
      .ok { e := true, t := false, ux := false, uw := false, ur := false, sx := false, sw := true,
            sr := true, ppn := 0x12345 } := by decide

theorem witness_LeafAddressParts : 1 < (Paging.of false).levels ∧ 2 < (Paging.of true).levels := by
  decide

theorem witness_TranslationTrapsAreAccessFaults :
    translateAddr sup32vm 0x402ABC .load true = .trap .loadAccessFault 0x402ABC := by decide

theorem witness_PhysicalAddressInRange :
    translateAddr sup32vm 0xC01ABC .load true = .ok 0x80001ABC ∧
    sup32vm.status.s64 = false ∧ (0xC01ABC#64).toNat < 2 ^ 32 ∧
    translateAddr sup64vm 0xFFFFFC0000802468 .fetch true = .ok 0x200802468 ∧
    sup64vm.status.s64 = true := by decide

/-- A machine with one page of memory, and its `pc` at the first word past it. -/
def onePage : State :=
  { sup with pc := 0x1000, conf := { Config.default with pmem := [{ base := 0, size := 4096 }] } }

theorem witness_MisalignedRootAndAbsentMemoryRefused :
    ({ usr32vm with ptbr := 0x10004 } : State).status.vm = true ∧
    ({ usr32vm with ptbr := 0x10004 } : State).status.s64 = false ∧
    ({ usr32vm with ptbr := 0x10004 } : State).ptbr.toNat % (Paging.of false).pageSize ≠ 0 ∧
    (0x1000#64).toNat % Width.four.bytes = 0 ∧
    physPresent onePage.conf 0x1000 Width.four.bytes = false ∧
    translateAddr onePage 0x1000 .load onePage.status.s = .ok 0x1000 ∧
    translateAddr onePage 0x1000 .store onePage.status.s = .ok 0x1000 ∧
    onePage.pc.toNat % 4 = 0 ∧ physPresent onePage.conf 0x1000 4 = false ∧
    translateAddr onePage onePage.pc .fetch onePage.status.s = .ok 0x1000 ∧
    physPresent onePage.conf 0x1000 (Paging.of onePage.status.s64).pteSize = false := by decide

theorem witness_CanonicalMemoryIsUnique :
    Memory.Wf tables32 ∧ ∀ a, tables32.readByte a = tables32.readByte a := ⟨by decide, fun _ => rfl⟩

/-- The last bytes of the address space of RV64S, 8 bytes wide. -/
theorem witness_StoreThenLoad :
    Memory.Wf sup64.mem ∧
    (match memWrite sup64 0xFFFFFFFFFFFFFFF8 .eight 0x1122334455667788 with
      | .ok t => decide (translateAddr t 0xFFFFFFFFFFFFFFF8 .load t.status.s =
          translateAddr sup64 0xFFFFFFFFFFFFFFF8 .store sup64.status.s)
      | .trap _ _ => false
      | .refused _ => false) = true ∧
    (0xFFFFFFFFFFFFFFF8#64).toNat % Width.eight.bytes = 0 := by decide

theorem witness_StoreFrame :
    Memory.Wf sup.mem ∧
    (match memWrite sup 0x100 .four 0x11223344 with
      | .ok _ => true
      | .trap _ _ => false
      | .refused _ => false) = true ∧
    translateAddr sup 0x100 .store sup.status.s = .ok 0x100 := by decide

theorem witness_MisalignedDataAccessTraps :
    (baseAddress toyBase 3 (setX sup 1 0x1002)).toNat % Width.four.bytes ≠ 0 := by decide

/-- The state in which the loads and stores of `toyBase` are at `a`. -/
def accessAt (s : State) (a : Word) : State :=
  setX s 1 a

/-- A load and a store of the last word of the address space that complete, the `pc` at the last word an
instruction goes on from; a load and a store whose translation traps, one on the last word of its page;
and a misaligned one of each. -/
theorem witness_LoadsAndStoresCompleteOrTrap :
    let last : State := accessAt { sup with pc := 0xFFFFFFF8 } 0xFFFFFFFC
    let forbidden : State := accessAt usr32vm 0x401FFC
    let odd : State := accessAt sup 0x102
    (baseAddress toyBase 3 last).toNat % Width.four.bytes = 0 ∧
    translateAddr last (baseAddress toyBase 3 last) .load last.status.s = .ok 0xFFFFFFFC ∧
    translateAddr last (baseAddress toyBase 4 last) .store last.status.s = .ok 0xFFFFFFFC ∧
    physPresent last.conf 0xFFFFFFFC Width.four.bytes = true ∧
    last.CanGoTo (baseEffect toyBase 3 last (last.mem.readLE 0xFFFFFFFC Width.four.bytes)).pc ∧
    last.CanGoTo (baseEffect toyBase 4 last 0).pc ∧
    (baseAddress toyBase 3 (accessAt sup32vm 0x402ABC)).toNat % Width.four.bytes = 0 ∧
    translateAddr (accessAt sup32vm 0x402ABC) 0x402ABC .load true = .trap .loadAccessFault 0x402ABC ∧
    (baseAddress toyBase 4 forbidden).toNat % Width.four.bytes = 0 ∧
    translateAddr forbidden (baseAddress toyBase 4 forbidden) .store forbidden.status.s =
      .trap .storeAccessFault 0x401FFC ∧
    forbidden.status.et = true ∧
    memRead odd (baseAddress toyBase 3 odd) .four = .trap .loadMisaligned 0x102 ∧
    memWrite odd (baseAddress toyBase 4 odd) .four (toyBase.storeData false 4 odd.userView) =
      .trap .storeMisaligned 0x102 := by decide

theorem witness_SystemCallTraps : usr.status.et = true ∧ State.reset.status.et = false := by decide

theorem witness_BreakpointTraps : sup.status.et = true ∧ State.reset.status.et = false := by decide

theorem witness_FloatingPointDisabled :
    let enabled : State := { sup64 with status := { sup64.status with ef := true } }
    sup.status.ef = false ∧ enabled.status.ef = true ∧
    enabled.CanGoTo (baseEffect toyBase 5 enabled 0).pc := by decide

/-- The last `pc` an instruction goes on from, and a target below zero where the `pc` wraps. -/
theorem witness_BaseInstructionsLeaveControlRegisters :
    (∃ t, execBase toyBase 6 .other sup = .next t) ∧
    ({ sup with pc := 0xFFFFFFF8 } : State).CanGoTo
      (baseEffect toyBase 6 { sup with pc := 0xFFFFFFF8 } 0).pc ∧
    ({ sup with conf := { Config.default with pcWrap := .wrap } } : State).CanGoTo (-4) :=
  ⟨⟨_, rfl⟩, by decide, by decide⟩

/-- A `pc` that is no multiple of 4, and one whose page forbids the fetch (V-AL 1, V-TR32 6). -/
theorem witness_FetchTraps :
    ({ sup with pc := 0x2002 } : State).pc.toNat % 4 ≠ 0 ∧
    ({ sup32vm with pc := 0xC01ABC } : State).pc.toNat % 4 = 0 ∧
    translateAddr { sup32vm with pc := 0xC01ABC } 0xC01ABC .fetch true =
      .trap .instrAccessFault 0xC01ABC := by decide

theorem witness_IllegalWordTraps :
    fetch { usr with mem := words [(0x10040, 0x0000037B)] } = .ok 0x0000037B ∧
    toy.decode usr.rv64InForce 0x0000037B = .illegal ∧ usr.status.et = true := by decide

theorem witness_StepRunsDecodedInstruction :
    pendingAtCompareWrite.errmode = false ∧ pendingAtCompareWrite.mixedWidth = false ∧
    fetch pendingAtCompareWrite = .ok 0x014001FB ∧
    decodeWord 0x014001FB = some (.mtpcr 0 .compare) ∧
    pendingAtCompareWrite.agenda = .defer :: [] ∧
    ({ pendingAtCompareWrite with timerIp := false } : State).leastQualifying = none ∧
    (tick { pendingAtCompareWrite with timerIp := false, compare := 9 }).leastQualifying = none := by
  decide

theorem witness_PlacedInstructionRuns :
    (Instr.mtpcr 31 .k1).wellFormed = true ∧ Memory.Wf sup.mem ∧ sup.errmode = false ∧
    sup.mixedWidth = false ∧ sup.status.vm = false ∧ sup.pc.toNat % 4 = 0 ∧
    sup.status.s64 = false ∧ canonical sup64.pc = true ∧
    physPresent sup.conf sup.pc.toNat 4 = true := by decide

/-- A machine that keeps neither premise, with a store over its code and one over its table. -/
def incoherent : State :=
  { sup32vm with
    conf := { Config.default with ifetchCoherent := false, tlbCoherent := false }
    storedBytes := [0x10043], storedUnderVm := [0x1000F] }

/-- One conjunct a hypothesis, clause by clause; the last bytes of the fetch and of the PTE. -/
theorem witness_UnmodelledSituationsRefused :
    let noVm : State := { incoherent with status := { sup.status with vm := false } }
    let top : State := accessAt { sup with pc := 0xFFFFFFFC } 0x100
    noVm.pc.toNat % 4 = 0 ∧ translateAddr noVm noVm.pc .fetch noVm.status.s = .ok 0x10040 ∧
    physPresent noVm.conf 0x10040 4 = true ∧ noVm.conf.ifetchCoherent = false ∧
    0x10040 + 3 ∈ noVm.storedBytes ∧
    physPresent incoherent.conf 0x1000C (Paging.of incoherent.status.s64).pteSize = true ∧
    incoherent.conf.tlbCoherent = false ∧ 3 < (Paging.of incoherent.status.s64).pteSize ∧
    0x1000C + 3 ∈ incoherent.storedUnderVm ∧
    (match memWrite sup32vm 0xC01ABC .four 1 with
      | .ok _ => true
      | .trap _ _ => false
      | .refused _ => false) = true ∧
    translateAddr sup32vm 0xC01ABC .store sup32vm.status.s = .ok 0x80001ABC ∧
    sup64.errmode = false ∧ sup64.conf.providesRv64 = true ∧
    (if ({ sup64.status with s := false, u64 := false } : Status).s then
        ({ sup64.status with s := false, u64 := false } : Status).s64
      else ({ sup64.status with s := false, u64 := false } : Status).u64) = false ∧
    top.status.s = true ∧ top.conf.pcWrap = .refuse ∧ 2 ^ top.conf.xlen ≤ top.pc.toNat + 4 ∧
    Pcr.isUnused .fromhost = false ∧ top.conf.unusedPcr = .readZeroIgnoreWrite ∧
    ¬ (Pcr.isReadOnly .epc = true ∧ top.conf.roWrite = .refuse) ∧
    ((2 ^ top.conf.xlen : Nat) : Int) ≤ (baseEffect toyBase 6 top 0).pc ∧
    memRead top (baseAddress toyBase 3 top) .four = .ok 0 ∧
    ((2 ^ top.conf.xlen : Nat) : Int) ≤ (baseEffect toyBase 3 top 0).pc ∧
    (match memWrite top (baseAddress toyBase 4 top) .four
        (toyBase.storeData top.rv64InForce 4 top.userView) with
      | .ok _ => true
      | .trap _ _ => false
      | .refused _ => false) = true := by
  decide

/-- A base instruction that moves the `pc`, and a `mtpcr`. -/
theorem witness_PcChangedOnlyByListedEvents :
    sup.errmode = false ∧
    nextIs (stepWith toy { sup with mem := words [(0x10040, 6)], agenda := [.run] })
      (fun t => ! t.errmode && t.pc != 0x10040) = true ∧
    pendingAtCompareWrite.errmode = false ∧
    nextIs (stepWith toy pendingAtCompareWrite) (fun t => ! t.errmode && t.pc != 0x10040) = true := by
  decide

theorem witness_StepKeepsInvariant :
    sup.Inv ∧ ∃ t, step (sup.withFetchWord 32 0x0000027B) = .next t :=
  ⟨sup_inv, _, rfl⟩

theorem witness_ResetLeaves :
    conf64.providesRv64 = true ∧ conf64.hasRv32User = false ∧ conf64.hasFpu = true ∧
    Config.default.providesRv64 = false ∧ Config.default.hasFpu = false := by decide

theorem witness_StatusLegalWhenReachable :
    Reachable toy (resetWith .default .zero) :=
  ⟨_, ⟨.default, .zero, [], 0, rfl⟩, .refl⟩

/-- A system call in user mode. -/
theorem witness_SupervisorEnteredOnlyByException :
    usr.status.s = false ∧
    nextIs (stepWith toy { usr with mem := words [(0x10040, 1)], agenda := [.run] })
      (fun t => t.status.s && ! t.errmode) = true := by decide

theorem witness_UserModeCannotWriteControlRegisters :
    usr.status.s = false ∧
    nextIs (cpuMove toy true { usr with mem := words [(0x10040, 6)] })
      (fun t => t.pc == 0x10044) = true := by decide

theorem witness_ControlRegistersInvisibleToUser : usr.status.s = false := by decide

end Sys2Proof.Tests
end

section
/-! SUPPORT. Every move of every agent keeps the invariant and the implementation, operation by
operation; the statements of 10_state.md about the invariant follow. -/

namespace Sys2Proof.Machine

/-! ### The faulting address of a trap -/

/-- Translation raises nothing but the access fault of its kind, with the address it translates
(20_memory.md R95, R99). -/
theorem translateAddr_trap (s : State) (va : Word) (kind : AccessKind) (mode : Bool) (c : Cause)
    (v : Word) (h : translateAddr s va kind mode = .trap c v) : c = accessFault kind ∧ v = va := by
  unfold translateAddr at h
  simp only at h
  split at h
  · cases h; exact ⟨rfl, rfl⟩
  · split at h
    · cases h
    · split at h
      · cases h
      · exact walk_trap _ _ _ _ _ _ _ _ h

/-- A load that traps reports its own address (20_memory.md R87, R99). -/
theorem memRead_trap_addr (s : State) (va : Word) (w : Width) (c : Cause) (v : Word)
    (h : memRead s va w = .trap c v) : v = va := by
  unfold memRead at h
  split at h
  · cases h; rfl
  · split at h
    · next ht => cases h; exact (translateAddr_trap _ _ _ _ _ _ ht).2
    · cases h
    · split at h <;> cases h

/-- A store that traps reports its own address (20_memory.md R87, R99). -/
theorem memWrite_trap_addr (s : State) (va : Word) (w : Width) (d : Word) (c : Cause) (v : Word)
    (h : memWrite s va w d = .trap c v) : v = va := by
  unfold memWrite at h
  split at h
  · cases h; rfl
  · split at h
    · next ht => cases h; exact (translateAddr_trap _ _ _ _ _ _ ht).2
    · cases h
    · split at h <;> cases h

/-- A fetch that traps reports the `pc` (20_memory.md R86, R99). -/
theorem fetch_trap_addr (s : State) (c : Cause) (v : Word) (h : fetch s = .trap c v) :
    v = s.pc := by
  unfold fetch at h
  split at h
  · cases h; rfl
  · split at h
    · next ht => cases h; exact (translateAddr_trap _ _ _ _ _ _ ht).2
    · cases h
    · split at h
      · cases h
      · split at h <;> cases h

/-! ### Outcomes that keep the invariant -/

/-- The state `r` goes on in, if it goes on, has the invariant and is of the implementation of `s`. -/
def Keeps (s : State) (r : Result) : Prop :=
  ∀ t, r = .next t → t.Inv ∧ t.conf = s.conf

theorem keeps_next {s t : State} (h : t.Inv) (hc : t.conf = s.conf) : Keeps s (.next t) := by
  intro u hu
  cases hu
  exact ⟨h, hc⟩

theorem keeps_refused (s : State) (r : Refusal) : Keeps s (.refused r) := by
  intro t ht
  cases ht

theorem Keeps.congr {s s' : State} {r : Result} (h : Keeps s' r) (hc : s'.conf = s.conf) :
    Keeps s r := by
  intro t ht
  rw [← hc]
  exact h t ht

theorem keeps_complete {s done : State} (target : Int) (h : done.Inv) (hc : done.conf = s.conf) :
    Keeps s (complete target done) := by
  intro t ht
  rw [complete_next _ _ _ ht]
  exact ⟨h, hc⟩

/-- Reset makes a state of the invariant whatever it draws and whatever its agents will do (10_state.md R62). -/
theorem inv_resetWith_agenda (c : Config) (u : UndefinedAtReset) (agenda : List Event)
    (draws : Nat) : ({ resetWith c u with agenda := agenda, draws := draws } : State).Inv :=
  inv_withAgenda agenda (inv_draws draws (inv_resetWith c u))

section
variable {s : State} (h : s.Inv)
include h

/-- An exception of the instruction at `pc` keeps the invariant when its faulting address fits. -/
theorem keeps_raise (c : Cause) (va : Word) (hva : s.conf.Fits va) : Keeps s (raise c va s) :=
  keeps_next (inv_takeException c _ _ h.widths.pc hva h) (takeException_conf ..)

theorem keeps_raise_zero (c : Cause) : Keeps s (raise c 0 s) :=
  keeps_raise h c 0 s.conf.fit_zero

theorem keeps_finish (e : BaseEffect) : Keeps s (finish e s) :=
  keeps_complete _ (inv_withEffect e h) rfl

/-! ### Base instructions -/

theorem keeps_execLoad (isa : BaseIsa) (w : BitVec 32) (n : Width) :
    Keeps s (execLoad isa w n s) := by
  unfold execLoad
  split
  · next hr =>
    rw [memRead_trap_addr _ _ _ _ _ hr]
    exact keeps_raise h _ _ (s.conf.fit_fit _)
  · exact keeps_refused _ _
  · exact keeps_finish h _

theorem keeps_execStore (isa : BaseIsa) (w : BitVec 32) (n : Width) :
    Keeps s (execStore isa w n s) := by
  unfold execStore
  split
  · next hw =>
    rw [memWrite_trap_addr _ _ _ _ _ _ hw]
    exact keeps_raise h _ _ (s.conf.fit_fit _)
  · exact keeps_refused _ _
  · next hw => exact (keeps_finish (inv_memWrite _ _ _ h hw) _).congr (memWrite_conf _ _ _ _ _ hw)

theorem keeps_execFloatingPoint (isa : BaseIsa) (w : BitVec 32)
    (access : Option (DataKind × Width)) : Keeps s (execFloatingPoint isa w access s) := by
  unfold execFloatingPoint
  split
  · split
    · exact keeps_finish h _
    · exact keeps_execLoad h isa w _
    · exact keeps_execStore h isa w _
  · exact keeps_raise_zero h _

theorem keeps_execBase (isa : BaseIsa) (w : BitVec 32) (c : BaseClass) :
    Keeps s (execBase isa w c s) := by
  cases c with
  | floatingPoint access => exact keeps_execFloatingPoint h isa w access
  | systemCall => exact keeps_raise_zero h .systemCall
  | breakpoint => exact keeps_raise_zero h .breakpoint
  | load n => exact keeps_execLoad h isa w n
  | store n => exact keeps_execStore h isa w n
  | other => exact keeps_finish h _

/-! ### The privileged instructions -/

theorem inv_readPcr (cr : Pcr) : (readPcr cr s).2.Inv := by
  rw [readPcr_state]
  exact inv_draws _ h

theorem keeps_execMfpcr (rd : RegIdx) (cr : Pcr) : Keeps s (execMfpcr rd cr s) := by
  rcases execMfpcr_cases rd cr s with ⟨c, hx, -⟩ | ⟨r, hx⟩ | ⟨-, hx⟩ <;> rw [hx]
  · exact keeps_raise_zero h c
  · exact keeps_refused s r
  · have hc : ((readPcr cr s).2.writeX rd (readPcr cr s).1).conf = s.conf := by
      rw [writeX_conf, readPcr_conf]
    refine keeps_next (inv_withPc _ ?_ (inv_writeX _ _ (inv_readPcr h cr))) hc
    rw [hc]
    exact s.conf.fit_fit _

theorem keeps_execMtpcr (rs : RegIdx) (cr : Pcr) : Keeps s (execMtpcr rs cr s) := by
  rcases execMtpcr_cases rs cr s with ⟨c, hx, -⟩ | ⟨r, hx⟩ | ⟨-, hx⟩ <;> rw [hx]
  · exact keeps_raise_zero h c
  · exact keeps_refused s r
  · have hc := writePcr_conf cr (s.readX rs) s
    refine keeps_next (inv_withPc _ ?_ (inv_writePcr _ _ h)) hc
    rw [hc]
    exact s.conf.fit_fit _

theorem keeps_execEret : Keeps s (execEret s) := by
  rcases execEret_cases s with ⟨-, hx⟩ | ⟨-, hx⟩ <;> rw [hx]
  · exact keeps_raise_zero h .privilegedInstr
  · exact keeps_next (inv_returnFromException h) rfl

theorem keeps_exec (i : Instr) : Keeps s (exec i s) := by
  cases i with
  | mfpcr rd cr => exact keeps_execMfpcr h rd cr
  | mtpcr rs cr => exact keeps_execMtpcr h rs cr
  | eret => exact keeps_execEret h

/-! ### The moves of the agents -/

theorem keeps_execAtPc (isa : Isa) : Keeps s (execAtPc isa s) := by
  unfold execAtPc
  split
  · next hf =>
    rw [fetch_trap_addr _ _ _ hf]
    exact keeps_raise h _ _ h.widths.pc
  · exact keeps_refused _ _
  · split
    · exact keeps_raise_zero h _
    · exact keeps_exec h _
    · exact keeps_execBase h _ _ _

theorem keeps_cpuMove (isa : Isa) (b : Bool) : Keeps s (cpuMove isa b s) := by
  intro t ht
  obtain ⟨-, -, ⟨i, -, -, rfl⟩ | hx⟩ := cpuMove_cases isa b s t ht
  · exact keeps_raise_zero h (.interrupt i) _ rfl
  · exact keeps_execAtPc h isa t hx

theorem keeps_applyEvent (isa : Isa) (e : Event) : Keeps s (applyEvent isa e s) := by
  cases e with
  | tick => exact keeps_next (inv_tick h) rfl
  | hostWrite v => exact keeps_next (inv_hostWrite v h) rfl
  | line i b => exact keeps_next (inv_setLine i b h) rfl
  | run => exact keeps_cpuMove h isa true
  | defer => exact keeps_cpuMove h isa false
  | reset u => exact keeps_next (inv_resetWith_agenda s.conf u _ _) rfl

theorem keeps_stepWith (isa : Isa) : Keeps s (stepWith isa s) := by
  rcases stepWith_cases isa s with ⟨e, rest, -, hx⟩ | ⟨-, hx⟩ <;> rw [hx]
  · exact (keeps_applyEvent (inv_withAgenda rest h) isa e).congr rfl
  · exact (keeps_cpuMove (inv_tick h) isa true).congr rfl

end

/-- Settles O54: every operation a step is made of keeps the invariant and the implementation. -/
theorem stepKeepsInvariant : Obligations.StepKeepsInvariant := by
  unfold Obligations.StepKeepsInvariant
  exact ⟨fun isa _ t h => keeps_stepWith h isa t, fun _ t h => keeps_stepWith h Isa.default t⟩

/-! ### Reset and reachable states -/

/-- The invariant holds in every reachable state: reset establishes it and every step keeps it. -/
theorem inv_of_reachable {isa : Isa} {s : State} (hr : Reachable isa s) : s.Inv := by
  obtain ⟨_, ⟨c, u, agenda, draws, rfl⟩, hs⟩ := hr
  induction hs with
  | refl => exact inv_resetWith_agenda c u agenda draws
  | step _ ht ih => exact (keeps_stepWith ih isa _ ht).1

end Sys2Proof.Machine
end

section
/-! SUPPORT. What a processor move does to the `pc` (10_state.md R24). -/

namespace Sys2Proof.Machine

/-! ### The events that change the `pc` -/

/-- From `s` the processor has entered the handler for an exception of the instruction at `pc`
(10_state.md R24 (a), 60_exceptions.md R240). -/
def EntersHandler (s t : State) : Prop :=
  s.status.et = true ∧ t.pc = s.evec ∧ t.epc = s.pc ∧ t.status.et = false ∧ t.status.s = true ∧
    t.status.ps = s.status.s

/-- One of the three instructions at `pc` has completed: `eret` at `epc`, the others at `pc + 4`
(10_state.md R24 (b), (c)). -/
def CompletesPrivileged (isa : Isa) (s t : State) : Prop :=
  ∃ w i, fetch s = .ok w ∧ isa.privileged w = some i ∧ s.status.s = true ∧
    t.pc = if i = .eret then s.epc else s.conf.fit (s.pc + 4)

/-- A base instruction at `pc` has completed where `BASE_ISA` says (10_state.md R24 (d)). -/
def CompletesBase (isa : Isa) (s t : State) : Prop :=
  ∃ w c loaded, fetch s = .ok w ∧ isa.decode s.rv64InForce w = .base c ∧ c ≠ .systemCall ∧
    c ≠ .breakpoint ∧ t.pc = s.conf.fit (BitVec.ofInt 64 (baseEffect isa.base w s loaded).pc) ∧
    t.status = s.status ∧ t.epc = s.epc ∧ t.cause = s.cause

/-- An exception that does not end in error mode enters the handler. -/
theorem entersHandler_takeException (c : Cause) (va : Word) (s : State)
    (ht : (takeException c s.pc va s).errmode = false) :
    EntersHandler s (takeException c s.pc va s) := by
  rcases takeException_cases c s.pc va s with ⟨het, hx⟩ | ⟨-, hx⟩ <;> rw [hx] at ht ⊢
  · exact ⟨het, rfl, rfl, rfl, rfl, rfl⟩
  · cases ht

/-- One of the three instructions that goes on, and not to error mode, enters the handler or completes
in supervisor mode. -/
theorem exec_pc (i : Instr) (s t : State) (h : exec i s = .next t) (ht : t.errmode = false) :
    EntersHandler s t ∨
      (s.status.s = true ∧ t.pc = if i = .eret then s.epc else s.conf.fit (s.pc + 4)) := by
  cases i with
  | mfpcr rd cr =>
    rw [exec_mfpcr] at h
    rcases execMfpcr_cases rd cr s with ⟨c, hx, -⟩ | ⟨r, hx⟩ | ⟨hs, hx⟩ <;> rw [hx] at h <;> cases h
    · exact .inl (entersHandler_takeException c 0 s ht)
    · exact .inr ⟨hs, rfl⟩
  | mtpcr rs cr =>
    rw [exec_mtpcr] at h
    rcases execMtpcr_cases rs cr s with ⟨c, hx, -⟩ | ⟨r, hx⟩ | ⟨hs, hx⟩ <;> rw [hx] at h <;> cases h
    · exact .inl (entersHandler_takeException c 0 s ht)
    · exact .inr ⟨hs, rfl⟩
  | eret =>
    rw [exec_eret] at h
    rcases execEret_cases s with ⟨-, hx⟩ | ⟨hs, hx⟩ <;> rw [hx] at h <;> cases h
    · exact .inl (entersHandler_takeException .privilegedInstr 0 s ht)
    · exact .inr ⟨hs, rfl⟩

/-- A store changes memory and what is recorded of it, and no register (41_base_isa_interface.md
R196). -/
theorem memWrite_frame (s t : State) (va : Word) (w : Width) (v : Word)
    (h : memWrite s va w v = .ok t) :
    t = { s with mem := t.mem, storedBytes := t.storedBytes, storedUnderVm := t.storedUnderVm } := by
  obtain ⟨-, pa, -, hp⟩ := memWrite_ok s t va w v h
  obtain ⟨-, rfl⟩ := physWrite_eq_some s t pa _ v hp
  rfl

/-- A base instruction that goes on, and not to error mode, enters the handler or completes. -/
theorem execBase_pc (isa : Isa) (w : BitVec 32) (c : BaseClass) (s t : State)
    (hf : fetch s = .ok w) (hd : isa.decode s.rv64InForce w = .base c)
    (h : execBase isa.base w c s = .next t) (ht : t.errmode = false) :
    EntersHandler s t ∨ CompletesBase isa s t := by
  rcases execBase_effects isa.base w c s t h with
    ⟨e, va, rfl⟩ | ⟨hc, hb, loaded, rfl⟩ | ⟨hc, hb, va, n, d, m, hm, rfl⟩
  · exact .inl (entersHandler_takeException e va s ht)
  · exact .inr ⟨w, c, loaded, hf, hd, hc, hb, rfl, rfl, rfl, rfl⟩
  · have hm := memWrite_frame s m va n d hm
    refine .inr ⟨w, c, 0, hf, hd, hc, hb, ?_, ?_, ?_, ?_⟩ <;> rw [hm] <;> rfl

/-- Everything a processor move that goes on, and not to error mode, does to the `pc`. -/
theorem cpuMove_pc (isa : Isa) (b : Bool) (s t : State) (h : cpuMove isa b s = .next t)
    (ht : t.errmode = false) :
    EntersHandler s t ∨ CompletesPrivileged isa s t ∨ CompletesBase isa s t := by
  obtain ⟨-, -, ⟨i, -, -, rfl⟩ | hx⟩ := cpuMove_cases isa b s t h
  · exact .inl (entersHandler_takeException _ _ s ht)
  · rcases execAtPc_cases isa s t hx with ⟨e, va, rfl⟩ | ⟨w, i, hf, hi, hx⟩ | ⟨w, c, hf, hd, hx⟩
    · exact .inl (entersHandler_takeException e va s ht)
    · exact (exec_pc i s t hx ht).imp_right fun hx => .inl ⟨w, i, hf, hi, hx⟩
    · exact (execBase_pc isa w c s t hf hd hx ht).imp_right .inr

/-- What a step does before the processor moves, taking the head of the agenda or a tick, changes nothing
the three events speak of. -/
theorem pcEvents_congr {isa : Isa} {s s' t : State} (hf : fetch s' = fetch s)
    (hs : s' = { s with count := s'.count, timerIp := s'.timerIp, agenda := s'.agenda })
    (h : EntersHandler s' t ∨ CompletesPrivileged isa s' t ∨ CompletesBase isa s' t) :
    EntersHandler s t ∨ CompletesPrivileged isa s t ∨ CompletesBase isa s t := by
  unfold EntersHandler CompletesPrivileged CompletesBase at h
  rw [hf] at h
  rw [hs] at h
  exact h

/-- A move of an agent changes the `pc` only if it is reset or the processor's. -/
theorem applyEvent_pc (isa : Isa) (e : Event) (s t : State) (h : applyEvent isa e s = .next t)
    (hpc : t.pc ≠ s.pc) :
    (∃ u, e = .reset u ∧ t.pc = 0x2000) ∨ ∃ b, cpuMove isa b s = .next t := by
  cases e with
  | tick => cases h; exact absurd rfl hpc
  | hostWrite v => cases h; exact absurd rfl hpc
  | line i b => cases h; exact absurd rfl hpc
  | run => exact .inr ⟨true, h⟩
  | defer => exact .inr ⟨false, h⟩
  | reset u => cases h; exact .inl ⟨u, rfl, rfl⟩

/-- Settles O53: a step that changes the `pc` is reset or a processor move, and a processor move changes
it by one of the three events. -/
theorem pcChangedOnlyByListedEvents : Obligations.PcChangedOnlyByListedEvents := by
  unfold Obligations.PcChangedOnlyByListedEvents
  intro isa s t _ h ht hpc
  rcases stepWith_cases isa s with ⟨e, rest, ha, hx⟩ | ⟨-, hx⟩ <;> rw [hx] at h
  · rcases applyEvent_pc isa e _ t h hpc with ⟨u, rfl, hu⟩ | ⟨b, hb⟩
    · exact .inl ⟨⟨u, rest, ha⟩, hu⟩
    · exact .inr (pcEvents_congr (fetch_withAgenda s rest) rfl (cpuMove_pc isa b _ t hb ht))
  · exact .inr (pcEvents_congr (fetch_tick s) rfl (cpuMove_pc isa true _ t h ht))

end Sys2Proof.Machine
end

section
/-! SUPPORT. The word of `status` bit by bit for a valid layout (10_state.md R33), and the write that
takes it apart again (R42). -/

namespace Sys2Proof.Machine

/-! ### The word of `status` under a valid layout -/

/-- The one-bit fields of `status` with their positions, in the order of `StatusLayout.positions`. -/
def statusFields (l : StatusLayout) (st : Status) : List (Nat × Bool) :=
  [(l.et, st.et), (l.ef, st.ef), (l.ps, st.ps), (l.s, st.s), (l.u64, st.u64), (l.s64, st.s64),
    (l.vm, st.vm)]

theorem map_fst_statusFields (l : StatusLayout) (st : Status) :
    (statusFields l st).map Prod.fst = l.positions := rfl

/-- A bit of the word is the bit of `IM` or of a field that stands there. -/
theorem getLsbD_statusWord_eq_any (l : StatusLayout) (st : Status) {i : Nat} (hi : i < 32) :
    (statusWord l st).getLsbD i =
      ((decide (8 ≤ i) && st.im.getLsbD (i - 8)) ||
        (statusFields l st).any fun f => f.2 && decide (i = f.1)) := by
  rw [getLsbD_statusWord l st i hi]
  simp only [statusFields, List.any_cons, List.any_nil, Bool.or_false]
  ac_rfl

/-- Where no field stands, no field is seen. -/
theorem any_statusFields_of_notMem (l : StatusLayout) (st : Status) {i : Nat}
    (hi : i ∉ l.positions) :
    ((statusFields l st).any fun f => f.2 && decide (i = f.1)) = false := by
  rw [List.any_eq_false]
  intro f hf h
  obtain ⟨-, h⟩ := Bool.and_eq_true_iff.mp h
  exact hi (of_decide_eq_true h ▸ map_fst_statusFields l st ▸ List.mem_map_of_mem hf)

/-- Where one field stands, it alone is seen: positions are distinct. -/
theorem any_statusFields_of_mem {l : StatusLayout} (h : l.Valid) (st : Status) {p : Nat} {b : Bool}
    (hp : (p, b) ∈ statusFields l st) :
    ((statusFields l st).any fun f => f.2 && decide (p = f.1)) = b := by
  rw [Bool.eq_iff_iff, List.any_eq_true]
  constructor
  · rintro ⟨f, hf, hb⟩
    obtain ⟨hb, hpf⟩ := Bool.and_eq_true_iff.mp hb
    have hnodup : ((statusFields l st).map Prod.fst).Nodup := h.1
    obtain rfl := List.inj_on_of_nodup_map hnodup hf hp (of_decide_eq_true hpf).symm
    exact hb
  · rintro rfl
    exact ⟨_, hp, by simp⟩

/-- Outside bits 15 to 8 there is no bit of `IM` (10_state.md R33). -/
theorem im_bit_eq_false (im : BitVec 8) {i : Nat} (him : ¬ (8 ≤ i ∧ i ≤ 15)) :
    (decide (8 ≤ i) && im.getLsbD (i - 8)) = false := by
  by_cases h8 : 8 ≤ i
  · rw [BitVec.getLsbD_of_ge im (i - 8) (by omega), Bool.and_false]
  · simp [h8]

/-- The bits no field names read 0 (10_state.md R33). -/
theorem getLsbD_statusWord_unnamed (l : StatusLayout) (st : Status) {i : Nat} (hi : i < 32)
    (him : ¬ (8 ≤ i ∧ i ≤ 15)) (hout : i ∉ l.positions) : (statusWord l st).getLsbD i = false := by
  rw [getLsbD_statusWord_eq_any l st hi, any_statusFields_of_notMem l st hout,
    im_bit_eq_false st.im him, Bool.false_or]

section
variable {l : StatusLayout} (h : l.Valid) (st : Status)
include h

/-- A one-bit field is read at its own position (10_state.md R33). -/
theorem getLsbD_statusWord_field {p : Nat} {b : Bool} (hp : (p, b) ∈ statusFields l st) :
    (statusWord l st).getLsbD p = b := by
  obtain ⟨hlt, him⟩ := h.2 p (map_fst_statusFields l st ▸ List.mem_map_of_mem hp)
  rw [getLsbD_statusWord_eq_any l st hlt, any_statusFields_of_mem h st hp,
    im_bit_eq_false st.im him, Bool.false_or]

/-- `IM` is read at bits 15 to 8 (10_state.md R33). -/
theorem getLsbD_statusWord_im {i : Nat} (h8 : 8 ≤ i) (h15 : i ≤ 15) :
    (statusWord l st).getLsbD i = st.im.getLsbD (i - 8) := by
  have hout : i ∉ l.positions := fun hi => (h.2 i hi).2 ⟨h8, h15⟩
  rw [getLsbD_statusWord_eq_any l st (by omega), any_statusFields_of_notMem l st hout]
  simp [h8]

theorem extractLsb'_statusWord : (statusWord l st).extractLsb' 8 8 = st.im := by
  apply BitVec.eq_of_getLsbD_eq
  intro i hi
  rw [BitVec.getLsbD_extractLsb', getLsbD_statusWord_im h st (by omega) (by omega),
    Nat.add_sub_cancel_left]
  simp [hi]

end

/-- A write of a `status` word gives each field its own value, as far as the implementation lets it be
(10_state.md R42). -/
theorem statusOfWord_statusWord {c : Config} (h : c.statusLayout.Valid) (st : Status) :
    statusOfWord c (statusWord c.statusLayout st) =
      { st with
        s64 := c.s64Of st.s64
        u64 := c.u64Of (c.s64Of st.s64) st.u64
        ef := c.efOf st.ef } := by
  have field {p : Nat} {b : Bool} := getLsbD_statusWord_field h st (p := p) (b := b)
  have hvm := field (p := c.statusLayout.vm) (b := st.vm) (by simp [statusFields])
  have hs := field (p := c.statusLayout.s) (b := st.s) (by simp [statusFields])
  have hps := field (p := c.statusLayout.ps) (b := st.ps) (by simp [statusFields])
  have hu64 := field (p := c.statusLayout.u64) (b := st.u64) (by simp [statusFields])
  have hs64 := field (p := c.statusLayout.s64) (b := st.s64) (by simp [statusFields])
  have hef := field (p := c.statusLayout.ef) (b := st.ef) (by simp [statusFields])
  have het := field (p := c.statusLayout.et) (b := st.et) (by simp [statusFields])
  simp only [statusOfWord, extractLsb'_statusWord h, hvm, hs, hps, hu64, hs64, hef, het]

/-- Settles O16, by what stands at the bit read: `IM`, one of the seven fields, or none. -/
theorem statusReadsBack : Obligations.StatusReadsBack := by
  unfold Obligations.StatusReadsBack
  intro c v i h hi l s64
  have field {p : Nat} {b : Bool} := getLsbD_statusWord_field h (statusOfWord c v) (p := p) (b := b)
  split_ifs with hw hs64 hu64 hef
  · rcases hw with ⟨h8, h15⟩ | rfl | rfl | rfl | rfl
    · rw [getLsbD_statusWord_im h _ h8 h15]
      have h1 : i - 8 < 8 := by omega
      have h2 : 8 + (i - 8) = i := by omega
      simp [statusOfWord, h1, h2]
    all_goals exact field (by simp [statusFields, statusOfWord, l])
  · subst hs64; exact field (by simp [statusFields, statusOfWord, l, s64])
  · subst hu64; exact field (by simp [statusFields, statusOfWord, l, s64])
  · subst hef; exact field (by simp [statusFields, statusOfWord, l])
  · simp only [not_or] at hw
    obtain ⟨him, hvm, hs, hps, het⟩ := hw
    exact getLsbD_statusWord_unnamed l _ hi him
      (by simp [StatusLayout.positions, hvm, hs, hps, het, hs64, hu64, hef])

/-- Settles O17: legal fields are what the implementation lets a write of them leave. -/
theorem statusWordRestoresFields : Obligations.StatusWordRestoresFields := by
  unfold Obligations.StatusWordRestoresFields
  intro s h ⟨hs64, hu64, hef, _⟩
  rw [statusOfWord_statusWord h, hs64, hu64, hef]

end Sys2Proof.Machine
end

section
/-! SUPPORT. `mfpcr` and `mtpcr` of an unused number and of `status`, and the bits `PS` and `ET`. -/

namespace Sys2Proof.Machine

/-! ### Unused control register numbers -/

theorem onPcr_of_refuse (n : Fin 32) (s : State) (act : State → Result)
    (hp : s.conf.unusedPcr = .refuse) : onPcr (.unused n) s act = .refused .unusedPcr := by
  simp [onPcr, Pcr.isUnused, hp]

theorem onPcr_of_illegalInstruction (n : Fin 32) (s : State) (act : State → Result)
    (hp : s.conf.unusedPcr = .illegalInstruction) :
    onPcr (.unused n) s act = raise .illegalInstr 0 s := by
  simp [onPcr, Pcr.isUnused, hp]

theorem onPcr_of_readZeroIgnoreWrite (n : Fin 32) (s : State) (act : State → Result)
    (hp : s.conf.unusedPcr = .readZeroIgnoreWrite) : onPcr (.unused n) s act = act s := by
  simp [onPcr, Pcr.isUnused, hp]

section
variable (x : RegIdx) (n : Fin 32) {s : State} (hs : s.status.s = true)
include hs

theorem exec_mfpcr_unused :
    exec (.mfpcr x (.unused n)) s = onPcr (.unused n) s fun s => advance (s.writeX x 0) := by
  rw [exec_mfpcr, execMfpcr, inSupervisorMode_of_supervisor _ _ hs]
  rfl

theorem exec_mtpcr_unused :
    exec (.mtpcr x (.unused n)) s = onPcr (.unused n) s advance := by
  rw [exec_mtpcr, execMtpcr, inSupervisorMode_of_supervisor _ _ hs]
  rfl

end

/-- Writing zero to an x register: it reads zero, `x0` as ever, and the others are as before. -/
theorem readX_writeX_zero (s : State) (x i : RegIdx) :
    (s.writeX x 0).readX i = if i = x then 0 else s.readX i := by
  rw [readX_writeX, show s.conf.fit 0 = 0 from s.conf.fit_zero]
  by_cases h0 : i = 0
  · simp [h0, State.readX]
  · simp [h0]

/-- Settles O9, by the value of the policy. -/
theorem unusedPcrFollowsPolicy : Obligations.UnusedPcrFollowsPolicy := by
  unfold Obligations.UnusedPcrFollowsPolicy
  intro s x n hs
  rw [exec_mfpcr_unused x n hs, exec_mtpcr_unused x n hs]
  refine ⟨fun hp => ?_, fun hp => ?_, fun hp ha => ?_⟩
  · exact ⟨onPcr_of_refuse n s _ hp, onPcr_of_refuse n s _ hp⟩
  · exact ⟨onPcr_of_illegalInstruction n s _ hp, onPcr_of_illegalInstruction n s _ hp⟩
  · rw [onPcr_of_readZeroIgnoreWrite n s _ hp, onPcr_of_readZeroIgnoreWrite n s _ hp]
    have hw := advance_of_canAdvance (s.writeX x 0) (ha.congr (writeX_conf ..) (writeX_pc ..))
    rw [writeX_conf, writeX_pc] at hw
    refine ⟨⟨_, hw, readX_writeX_zero s x, ?_⟩, advance_of_canAdvance s ha⟩
    rw [writeX_eq]
    rfl

/-! ### Writing `status`, and the bits `PS` and `ET` -/

/-- `mtpcr` to `status` in supervisor mode (40_privileged.md R174, R175). -/
theorem exec_mtpcr_status (s : State) (rs : RegIdx) (hs : s.status.s = true) (ha : s.CanAdvance) :
    exec (.mtpcr rs .status) s =
      .next { s with
        status := statusOfWord s.conf (low32 (s.readX rs))
        pc := s.conf.fit (s.pc + 4) } :=
  execMtpcr_of_supervisor rs .status s hs ha rfl rfl

/-- `eret` in supervisor mode (40_privileged.md R177). -/
theorem exec_eret_of_supervisor (s : State) (hs : s.status.s = true) :
    exec .eret s = .next (returnFromException s) := by
  rw [exec_eret, execEret, inSupervisorMode_of_supervisor _ _ hs]

/-- Settles O13: the write is `statusOfWord`, whose hard-wired fields are those of the variant. -/
theorem mtpcrWritesStatusFields : Obligations.MtpcrWritesStatusFields := by
  unfold Obligations.MtpcrWritesStatusFields
  intro s rs hs ha v l
  refine ⟨_, exec_mtpcr_status s rs hs ha, rfl, rfl, rfl, rfl, rfl, rfl, rfl, ?_, ?_, ?_, ?_, ?_⟩
  · intro hv; simp [statusOfWord, Config.s64Of, hv]
  · intro hv; simp [statusOfWord, Config.s64Of, hv]
  · intro hv; simp [statusOfWord, Config.s64Of, hv, v, l]
  · intro _ hu; simp [statusOfWord, Config.u64Of, hu]
  · intro _ hu; simp [statusOfWord, Config.u64Of, hu, v, l]

/-- Settles O18: exception entry, `eret`, write, read and reset, by the equation of each. -/
theorem previousModeBit : Obligations.PreviousModeBit := by
  unfold Obligations.PreviousModeBit
  refine ⟨fun s c e va het => ?_, fun s hs => ?_, fun s rs hs ha => ?_, fun l st h => ?_, fun c b => ?_⟩
  · rw [takeException_of_et c e va s het]; rfl
  · exact ⟨_, exec_eret_of_supervisor s hs, rfl, rfl⟩
  · exact ⟨_, exec_mtpcr_status s rs hs ha, rfl⟩
  · exact getLsbD_statusWord_field h st (by simp [statusFields])
  · exact ⟨{ UndefinedAtReset.zero with ps := b }, rfl⟩

/-- Settles O19: traps with `ET` clear and set, `eret`, write, read and reset, by the equation of
each. -/
theorem exceptionEnableBit : Obligations.ExceptionEnableBit := by
  unfold Obligations.ExceptionEnableBit
  refine ⟨fun s het => ⟨fun i => ?_, fun c e va => ?_⟩, fun s c e va het => ?_, fun s hs => ?_,
    fun s rs hs ha => ?_, fun l st h => ?_, fun c u => rfl⟩
  · simp [State.qualifies, het]
  · rw [takeException_of_not_et c e va s het]; rfl
  · rw [takeException_of_et c e va s het]; exact ⟨rfl, rfl⟩
  · exact ⟨_, exec_eret_of_supervisor s hs, rfl⟩
  · exact ⟨_, exec_mtpcr_status s rs hs ha, rfl⟩
  · exact getLsbD_statusWord_field h st (by simp [statusFields])

end Sys2Proof.Machine
end

section
/-! SUPPORT. Reset (10_state.md R62), and what the invariant says of `status` in every reachable state
(R43). -/

namespace Sys2Proof.Machine

/-- `State.reset` is reset of the default implementation with every undefined value zero (log 3, 4). -/
theorem reset_eq_resetWith : State.reset = resetWith .default .zero := by
  have hx : Vector.replicate 32 0 =
      ((UndefinedAtReset.zero.x).map Config.default.fit).set 0 0 := by
    apply Vector.ext
    intro i hi
    rw [Vector.getElem_set]
    split <;> simp [UndefinedAtReset.zero]
  rw [resetWith, ← hx]
  rfl

/-- Settles O55. -/
theorem resetEstablishesInvariant : Obligations.ResetEstablishesInvariant := by
  unfold Obligations.ResetEstablishesInvariant
  refine ⟨reset_eq_resetWith, ?_, inv_resetWith_agenda⟩
  rw [reset_eq_resetWith]
  exact inv_resetWith _ _

/-- An x register after reset is the value drawn, cut to its width (10_state.md R62). -/
theorem readX_resetWith (c : Config) (u : UndefinedAtReset) (i : RegIdx) (hi : i ≠ 0) :
    (resetWith c u).readX i = c.fit u.x[i] := by
  have h0 : 0 ≠ i.val := fun h => hi (Fin.ext h.symm)
  simp [State.readX, resetWith, hi, h0]

/-- Settles O56: each field by `resetWith`, the hard-wired ones by the parameter that fixes them. -/
theorem resetLeaves : Obligations.ResetLeaves := by
  unfold Obligations.ResetLeaves
  intro c u s
  have hu64 : s.status.u64 = (c.providesRv64 && (! c.hasRv32User || u.u64)) := rfl
  have hef : s.status.ef = (c.hasFpu && u.ef) := rfl
  refine ⟨rfl, rfl, rfl, rfl, rfl, rfl, rfl, rfl, fun h => ?_, fun h h' => ?_, fun h h' => ?_,
    fun h => ?_, fun h => ?_, rfl, rfl, readX_resetWith c u, rfl, rfl, rfl, rfl, rfl, rfl, rfl, rfl,
    rfl, rfl, rfl⟩
  · simp [hu64, h]
  · simp [hu64, h, h']
  · simp [hu64, h, h']
  · simp [hef, h]
  · simp [hef, h]

/-- Settles O57: the invariant of every reachable state, read for each hard-wired field. -/
theorem statusLegalWhenReachable : Obligations.StatusLegalWhenReachable := by
  unfold Obligations.StatusLegalWhenReachable
  intro isa s hr
  obtain ⟨hs64, hu64, hef, himp⟩ := (inv_of_reachable hr).status
  refine ⟨himp, fun hv => ?_, fun hv => ?_, fun hu h64 => ?_, fun hf => ?_⟩
  · have h64 : s.status.s64 = false := by rw [← hs64, Config.s64Of, hv]
    exact ⟨h64, himp h64⟩
  · rw [← hs64, Config.s64Of, hv]
  · rw [← hu64, Config.u64Of, h64, hu]; rfl
  · rw [← hef, Config.efOf, hf]; rfl

end Sys2Proof.Machine
end

section
/-! SUPPORT. Translation answer by answer: when an address is canonical, what each guard of a translation
decides, one level of a walk given its PTE, and the quotient and remainder that make a leaf's physical
address. The statements of 20_memory.md about translation follow. -/

namespace Sys2Proof.Machine

/-! ### Canonical addresses -/

/-- Extending bit 42 gives the address back exactly when bits 63 to 43 are all bit 42 (20_memory.md
R95). -/
theorem canonical_iff (va : Word) :
    canonical va = true ↔ ∀ b, 43 ≤ b → b < 64 → va.getLsbD b = va.getLsbD 42 := by
  have extended (b : Nat) (hb : b < 64) : ((va.setWidth 43).signExtend 64).getLsbD b =
      if b < 43 then va.getLsbD b else va.getLsbD 42 := by
    rw [BitVec.getLsbD_signExtend, BitVec.msb_eq_getLsbD_last]
    by_cases h : b < 43
    · simp [hb, h]
    · simp [hb, h]
  rw [canonical, beq_iff_eq]
  constructor
  · intro h b h43 h64
    rw [← h, extended b h64, extended 42 (by omega), if_neg (by omega), if_pos (by omega)]
  · intro h
    apply BitVec.eq_of_getLsbD_eq
    intro b hb
    rw [extended b hb]
    split
    · rfl
    · exact (h b (by omega) hb).symm

/-! ### What the guards of a translation decide -/

section
variable {s : State} {va : Word} (kind : AccessKind) (mode : Bool)

/-- The canonical check comes before any walk (20_memory.md R95, R99). -/
theorem translateAddr_of_not_canonical (h64 : s.status.s64 = true) (hc : canonical va = false)
    (hon : s.status.vm = true ∨ s.conf.canonCheckVm0 = true) :
    translateAddr s va kind mode = .trap (accessFault kind) va := by
  rcases hon with h | h <;> simp [translateAddr, h64, hc, h]

/-- With `VM = 0` an address that passes the canonical check, where one is made, is its own physical
address (20_memory.md R95, R100). -/
theorem translateAddr_of_not_vm (hvm : s.status.vm = false)
    (hc : s.status.s64 = false ∨ canonical va = true ∨ s.conf.canonCheckVm0 = false) :
    translateAddr s va kind mode = .ok va.toNat := by
  rcases hc with h | h | h <;> simp [translateAddr, hvm, h]

/-- A walk needs its root table page-aligned (20_memory.md R97). -/
theorem translateAddr_of_misaligned_root (hvm : s.status.vm = true)
    (hc : s.status.s64 = false ∨ canonical va = true)
    (hr : s.ptbr.toNat % (Paging.of s.status.s64).pageSize ≠ 0) :
    translateAddr s va kind mode = .refused .misalignedPtbr := by
  have pass : ¬ (s.status.s64 && ! canonical va && (s.status.vm || s.conf.canonCheckVm0)) = true := by
    rcases hc with h | h <;> simp [h]
  rw [translateAddr, if_neg pass, if_neg (by simp [hvm]), if_pos hr]

end

/-- A translation that answers an address answers the one asked for, with `VM = 0`, or a walk's
(20_memory.md R96, R100). -/
theorem translateAddr_ok (s : State) (va : Word) (kind : AccessKind) (mode : Bool) (pa : Nat)
    (h : translateAddr s va kind mode = .ok pa) :
    pa = va.toNat ∨
      walk s va kind mode ((Paging.of s.status.s64).levels - 1) s.ptbr.toNat = .ok pa := by
  unfold translateAddr at h
  simp only at h
  split at h
  · cases h
  · split at h
    · cases h; exact .inl rfl
    · split at h
      · cases h
      · exact .inr h

/-! ### One level of a walk, given its PTE -/

section
variable {pte : Pte} (p : Paging) (va : Word) (kind : AccessKind) (mode : Bool) (i : Nat)

theorem Pte.entry_of_leaf (he : pte.e = true) :
    pte.entry p va kind mode i =
      if pte.allows kind mode then .leaf (p.leafAddress pte va i) else .error := by
  simp [Pte.entry, he]

theorem Pte.entry_of_pointer (he : pte.e = false) (ht : pte.t = true) (hi : 0 < i) :
    pte.entry p va kind mode i = .table (pte.ppn * p.pageSize) := by
  simp [Pte.entry, he, ht, hi.ne']

/-- Neither a leaf nor a pointer, or a pointer with no level below it (20_memory.md R103). -/
theorem Pte.entry_of_invalid (he : pte.e = false) (hti : pte.t = false ∨ i = 0) :
    pte.entry p va kind mode i = .error := by
  rcases hti with h | h <;> simp [Pte.entry, he, h]

end

section
variable {s : State} {va : Word} (kind : AccessKind) (mode : Bool) {i a : Nat} {pte : Pte}

/-- At level 0 there is no answer but a leaf's (20_memory.md R96 step 4). -/
theorem walk_zero_of_readPte (hp : readPte s (pteAddress s va 0 a) = .ok pte) :
    walk s va kind mode 0 a =
      if pte.e && pte.allows kind mode then .ok ((Paging.of s.status.s64).leafAddress pte va 0)
      else .trap (accessFault kind) va := by
  rw [walk, walkEntry_of_readPte s va kind mode 0 a pte hp]
  cases he : pte.e
  · rw [Pte.entry_of_invalid _ _ _ _ _ he (.inr rfl)]; rfl
  · rw [Pte.entry_of_leaf _ _ _ _ _ he]
    cases pte.allows kind mode <;> rfl

theorem walk_zero_of_refused {r : Refusal} (hp : readPte s (pteAddress s va 0 a) = .error r) :
    walk s va kind mode 0 a = .refused r := by
  simp [walk, walkEntry, hp]

/-- A leaf above level 0 maps a superpage (20_memory.md R96 step 3, R101). -/
theorem walk_succ_of_leaf (hp : readPte s (pteAddress s va (i + 1) a) = .ok pte)
    (he : pte.e = true) :
    walk s va kind mode (i + 1) a =
      if pte.allows kind mode then .ok ((Paging.of s.status.s64).leafAddress pte va (i + 1))
      else .trap (accessFault kind) va := by
  rw [walk, walkEntry_of_readPte s va kind mode (i + 1) a pte hp, Pte.entry_of_leaf _ _ _ _ _ he]
  cases pte.allows kind mode <;> rfl

theorem walk_succ_of_invalid (hp : readPte s (pteAddress s va (i + 1) a) = .ok pte)
    (he : pte.e = false) (ht : pte.t = false) :
    walk s va kind mode (i + 1) a = .trap (accessFault kind) va := by
  rw [walk, walkEntry_of_readPte s va kind mode (i + 1) a pte hp,
    Pte.entry_of_invalid _ _ _ _ _ he (.inl ht)]

/-- A pointer sends the walk one level down (20_memory.md R96 step 4). -/
theorem walk_succ_of_pointer (hp : readPte s (pteAddress s va (i + 1) a) = .ok pte)
    (he : pte.e = false) (ht : pte.t = true) :
    walk s va kind mode (i + 1) a =
      walk s va kind mode i (pte.ppn * (Paging.of s.status.s64).pageSize) := by
  rw [walk, walkEntry_of_readPte s va kind mode (i + 1) a pte hp,
    Pte.entry_of_pointer _ _ _ _ _ he ht i.succ_pos]

end

/-! ### The physical address of a leaf -/

section
variable (p : Paging) (pte : Pte) (va : Word) (i : Nat)

theorem Paging.leafSize_pos : 0 < p.leafSize i := Nat.two_pow_pos _

/-- The page number of a superpage is the PTE's (20_memory.md R96 step 3). -/
theorem Paging.leafAddress_div_leafSize :
    p.leafAddress pte va i / p.leafSize i = pte.ppn / 2 ^ (10 * i) := by
  have hva : va.toNat % p.leafSize i / p.leafSize i = 0 :=
    Nat.div_eq_of_lt (Nat.mod_lt _ (p.leafSize_pos i))
  rw [Paging.leafAddress, Nat.add_comm, Nat.add_mul_div_right _ _ (p.leafSize_pos i), hva,
    Nat.zero_add]

/-- The offset in a superpage is the virtual address's (20_memory.md R96 step 3). -/
theorem Paging.leafAddress_mod_leafSize :
    p.leafAddress pte va i % p.leafSize i = va.toNat % p.leafSize i := by
  rw [Paging.leafAddress, Nat.mul_add_mod', Nat.mod_mod]

/-- A leaf at level 0 maps one page. -/
theorem Paging.leafAddress_zero :
    p.leafAddress pte va 0 = pte.ppn * p.pageSize + va.toNat % p.pageSize := by
  rw [Paging.leafAddress, Nat.mul_zero, Nat.pow_zero, Nat.div_one]; rfl

/-- From the level of the leaf up, the page number is the PTE's. -/
theorem Paging.leafAddress_div_of_le {j : Nat} (hij : i ≤ j) :
    p.leafAddress pte va i / 2 ^ (p.pgoffBits + 10 * j) = pte.ppn / 2 ^ (10 * j) := by
  have low : 2 ^ (p.pgoffBits + 10 * j) = p.leafSize i * 2 ^ (10 * (j - i)) := by
    rw [Paging.leafSize, ← Nat.pow_add]; congr 1; omega
  have high : 2 ^ (10 * j) = 2 ^ (10 * i) * 2 ^ (10 * (j - i)) := by
    rw [← Nat.pow_add]; congr 1; omega
  rw [low, high, ← Nat.div_div_eq_div_mul, ← Nat.div_div_eq_div_mul,
    Paging.leafAddress_div_leafSize]

/-- Below the level of the leaf, the low bits are the virtual address's. -/
theorem Paging.leafAddress_mod_of_le {k : Nat} (hk : k ≤ p.pgoffBits + 10 * i) :
    p.leafAddress pte va i % 2 ^ k = va.toNat % 2 ^ k := by
  have hdvd : 2 ^ k ∣ p.leafSize i := Nat.pow_dvd_pow 2 hk
  rw [← Nat.mod_mod_of_dvd _ hdvd, Paging.leafAddress_mod_leafSize, Nat.mod_mod_of_dvd _ hdvd]

/-- Below the level of the leaf, a part of the page number is the virtual one. -/
theorem Paging.leafAddress_part_of_lt {j : Nat} (hji : j < i) :
    p.leafAddress pte va i / 2 ^ (p.pgoffBits + 10 * j) % 1024 = p.vpn va j := by
  have part (n : Nat) : n / 2 ^ (p.pgoffBits + 10 * j) % 1024 =
      n % 2 ^ (p.pgoffBits + 10 * j + 10) / 2 ^ (p.pgoffBits + 10 * j) := by
    rw [Nat.pow_add 2 (p.pgoffBits + 10 * j) 10, Nat.mod_mul_right_div_self]
  rw [Paging.vpn, part, part, Paging.leafAddress_mod_of_le _ _ _ _ (by omega)]

/-- A leaf's physical address has the width of its page number and the page offset (20_memory.md R90,
R92). -/
theorem Paging.leafAddress_lt (hi : 10 * i ≤ p.ppnBits) (hppn : pte.ppn < 2 ^ p.ppnBits) :
    p.leafAddress pte va i < 2 ^ (p.pgoffBits + p.ppnBits) := by
  have hquot : p.leafAddress pte va i / p.leafSize i < 2 ^ (p.ppnBits - 10 * i) := by
    rw [Paging.leafAddress_div_leafSize, Nat.div_lt_iff_lt_mul (Nat.two_pow_pos _), ← Nat.pow_add]
    rwa [Nat.sub_add_cancel hi]
  have hexp : p.ppnBits - 10 * i + (p.pgoffBits + 10 * i) = p.pgoffBits + p.ppnBits := by omega
  rwa [Nat.div_lt_iff_lt_mul (p.leafSize_pos i), Paging.leafSize, ← Nat.pow_add, hexp] at hquot

end

/-- A page number has a part for each level (20_memory.md R90, R92). -/
theorem ppnBits_of_ge (rv64s : Bool) :
    10 * ((Paging.of rv64s).levels - 1) ≤ (Paging.of rv64s).ppnBits := by
  cases rv64s <;> decide

/-- A walk answers no address beyond the physical space of its variant. -/
theorem walk_lt (s : State) (va : Word) (kind : AccessKind) (mode : Bool) (pa : Nat)
    (h : walk s va kind mode ((Paging.of s.status.s64).levels - 1) s.ptbr.toNat = .ok pa) :
    pa < 2 ^ ((Paging.of s.status.s64).pgoffBits + (Paging.of s.status.s64).ppnBits) := by
  obtain ⟨pte, j, hj, hppn, -, rfl⟩ := walk_ok s va kind mode _ _ pa h
  have hlevels := ppnBits_of_ge s.status.s64
  exact Paging.leafAddress_lt _ pte va j (by omega) hppn

/-! ### The statements -/

/-- Settles O29, by the two guards that come before a walk. -/
theorem untranslatedWithoutVm : Obligations.UntranslatedWithoutVm := by
  unfold Obligations.UntranslatedWithoutVm
  intro s va kind mode hvm
  refine ⟨fun h64 => ?_, fun _ hc => ?_, fun h64 hc hon => ?_⟩
  · exact translateAddr_of_not_vm kind mode hvm (.inl h64)
  · exact translateAddr_of_not_vm kind mode hvm (.inr hc)
  · exact translateAddr_of_not_canonical kind mode h64 hc (.inr hon)

/-- Settles O30: one bit that differs from bit 42 makes the address non-canonical. -/
theorem nonCanonicalAddressTraps : Obligations.NonCanonicalAddressTraps := by
  unfold Obligations.NonCanonicalAddressTraps
  intro s va kind mode h64 ⟨b, h43, hb, hne⟩ hon
  have hc : canonical va = false := by
    rw [← Bool.not_eq_true, canonical_iff]
    exact fun h => hne (h b h43 hb)
  exact translateAddr_of_not_canonical kind mode h64 hc hon

/-- Settles O31: a leaf asks the one bit `Pte.allows` names; another PTE asks none. -/
theorem permissionBits : Obligations.PermissionBits := by
  unfold Obligations.PermissionBits
  intro s va i a pte p hp
  have entry (kind : AccessKind) (mode : Bool) :=
    walkEntry_of_readPte s va kind mode i a pte hp
  refine ⟨fun he => ?_, fun he kind mode kind' mode' => ?_⟩
  · simp only [entry, Pte.entry_of_leaf _ _ _ _ _ he]
    exact ⟨rfl, rfl, rfl, rfl, rfl, rfl⟩
  · simp [entry, Pte.entry, he]

/-- Settles O32, by what a PTE can be. -/
theorem pteKindsByLevel : Obligations.PteKindsByLevel := by
  unfold Obligations.PteKindsByLevel
  intro s va kind mode i a pte p hp
  rw [walkEntry_of_readPte s va kind mode i a pte hp]
  refine ⟨fun he ha => ?_, fun he ht hi => ?_, fun he hti => ?_⟩
  · rw [Pte.entry_of_leaf _ _ _ _ _ he, if_pos ha]
  · exact Pte.entry_of_pointer _ _ _ _ _ he ht hi
  · exact Pte.entry_of_invalid _ _ _ _ _ he hti

/-- Settles O35, by the quotient and the remainder of a leaf's address. -/
theorem leafAddressParts : Obligations.LeafAddressParts := by
  unfold Obligations.LeafAddressParts
  intro rv64s pte va i p pa hi
  refine ⟨p.leafAddress_mod_of_le pte va i (Nat.le_add_right _ _), fun j _ => ?_, ?_⟩
  · split
    · next hji => exact p.leafAddress_part_of_lt pte va i hji
    · next hji => rw [p.leafAddress_div_of_le pte va i (Nat.le_of_not_lt hji)]
  · exact p.leafAddress_div_of_le pte va i (Nat.le_sub_one_of_lt hi)

/-- Settles O36. -/
theorem translationTrapsAreAccessFaults : Obligations.TranslationTrapsAreAccessFaults :=
  translateAddr_trap

/-- Settles O37: untranslated, the address is as wide as the one asked for; translated, as a leaf's. -/
theorem physicalAddressInRange : Obligations.PhysicalAddressInRange := by
  unfold Obligations.PhysicalAddressInRange
  intro s va kind mode pa h
  rcases translateAddr_ok s va kind mode pa h with rfl | hw
  · exact ⟨fun _ => va.isLt, fun _ hva => hva⟩
  · have hlt := walk_lt s va kind mode pa hw
    exact ⟨fun h64 => by rwa [h64] at hlt, fun h64 _ => by rwa [h64] at hlt⟩

/-- The address of a PTE in RV32S (20_memory.md R89, R96 step 2). -/
theorem pteAddress_of_rv32 {s : State} (h64 : s.status.s64 = false) (va : Word) (i a : Nat) :
    pteAddress s va i a = a + va.toNat / 2 ^ (12 + 10 * i) % 1024 * 4 := by
  rw [pteAddress, h64]; rfl

/-- The address of a PTE in RV64S (20_memory.md R91, R96 step 2). -/
theorem pteAddress_of_rv64 {s : State} (h64 : s.status.s64 = true) (va : Word) (i a : Nat) :
    pteAddress s va i a = a + va.toNat / 2 ^ (13 + 10 * i) % 1024 * 8 := by
  rw [pteAddress, h64]; rfl

/-- Settles O33: the root's level of the walk, and below a pointer the level of the leaf. -/
theorem rv32sTwoLevelWalk : Obligations.Rv32sTwoLevelWalk := by
  unfold Obligations.Rv32sTwoLevelWalk
  intro s va kind mode root h64 hvm hptbr hroot
  have hlevels : (Paging.of s.status.s64).levels - 1 = 1 := by rw [h64]; rfl
  have hsize : (Paging.of s.status.s64).pageSize = 4096 := by rw [h64]; rfl
  have hroot : readPte s (pteAddress s va 1 s.ptbr.toNat) = .ok root := by
    rwa [pteAddress_of_rv32 h64]
  rw [translateAddr_eq_walk s va kind mode hvm (.inl h64) (by rwa [hsize]), hlevels]
  cases he : root.e
  · cases ht : root.t
    · exact walk_succ_of_invalid kind mode hroot he ht
    · rw [walk_succ_of_pointer kind mode hroot he ht, hsize]
      cases hleaf : readPte s (root.ppn * 4096 + va.toNat / 2 ^ 12 % 1024 * 4) with
      | error r => exact walk_zero_of_refused kind mode (by rwa [pteAddress_of_rv32 h64])
      | ok leaf =>
        rw [walk_zero_of_readPte kind mode (pte := leaf) (by rwa [pteAddress_of_rv32 h64]),
          Paging.leafAddress_zero, hsize]
        rfl
  · rw [walk_succ_of_leaf kind mode hroot he, h64]; rfl

/-- Settles O34: the levels of the walk from the root down, each by what its PTE is. -/
theorem rv64sThreeLevelWalk : Obligations.Rv64sThreeLevelWalk := by
  unfold Obligations.Rv64sThreeLevelWalk
  intro s va kind mode root h64 hvm hc hptbr hroot
  have hlevels : (Paging.of s.status.s64).levels - 1 = 2 := by rw [h64]; rfl
  have hsize : (Paging.of s.status.s64).pageSize = 8192 := by rw [h64]; rfl
  have hroot : readPte s (pteAddress s va 2 s.ptbr.toNat) = .ok root := by
    rwa [pteAddress_of_rv64 h64]
  rw [translateAddr_eq_walk s va kind mode hvm (.inr hc) (by rwa [hsize]), hlevels]
  refine ⟨fun he => ?_, fun he ht => ?_, fun he ht middle hmiddle => ?_⟩
  · rw [walk_succ_of_leaf kind mode hroot he, h64]; rfl
  · exact walk_succ_of_invalid kind mode hroot he ht
  have hmiddle : readPte s (pteAddress s va 1 (root.ppn * 8192)) = .ok middle := by
    rwa [pteAddress_of_rv64 h64]
  rw [walk_succ_of_pointer kind mode hroot he ht, hsize]
  refine ⟨fun he => ?_, fun he ht => ?_, fun he ht leaf hleaf => ?_⟩
  · rw [walk_succ_of_leaf kind mode hmiddle he, h64]; rfl
  · exact walk_succ_of_invalid kind mode hmiddle he ht
  have hleaf : readPte s (pteAddress s va 0 (middle.ppn * 8192)) = .ok leaf := by
    rwa [pteAddress_of_rv64 h64]
  rw [walk_succ_of_pointer kind mode hmiddle he ht, hsize, walk_zero_of_readPte kind mode hleaf,
    Paging.leafAddress_zero, hsize]

end Sys2Proof.Machine
end

section
/-! SUPPORT. Memory as the map its bytes are, loads and stores through translation, and the
fetch. The statements of 20_memory.md about memory and fetch follow. -/

namespace Sys2Proof.Machine

/-! ### A canonical memory is the list of its non-zero bytes -/

theorem Memory.wf_of_cons {c : Host.Cell} {m : Memory} (h : Memory.Wf (c :: m)) : m.Wf :=
  ⟨(List.pairwise_cons.mp h.1).2, fun d hd => h.2 d (List.mem_cons_of_mem c hd)⟩

/-- A byte that no cell of a memory is at reads as nothing written (log 6). -/
theorem Memory.readByte_of_forall_ne (m : Memory) (a : Nat) (h : ∀ c ∈ m, c.1 ≠ a) :
    m.readByte a = Memory.unlisted := by
  induction m with
  | nil => rfl
  | cons c m ih =>
    rw [Memory.readByte, if_neg (h c List.mem_cons_self)]
    exact ih fun d hd => h d (List.mem_cons_of_mem c hd)

/-- In canonical form the cells are the addresses whose byte is not that of an unlisted one, with that
byte. -/
theorem Memory.mem_iff_readByte (m : Memory) (hm : m.Wf) (c : Host.Cell) :
    c ∈ m ↔ c.2 ≠ Memory.unlisted ∧ m.readByte c.1 = c.2 := by
  induction m with
  | nil => simpa [Memory.readByte] using fun h h' => h h'.symm
  | cons d m ih =>
    obtain ⟨b, v⟩ := d
    have above := (List.pairwise_cons.mp hm.1).1
    rw [List.mem_cons, ih (Memory.wf_of_cons hm), Memory.readByte]
    by_cases hb : b = c.1
    · subst hb
      have absent : Memory.readByte m c.1 = Memory.unlisted :=
        Memory.readByte_of_forall_ne m _ fun d hd => (above d hd).ne'
      have hv : v ≠ Memory.unlisted := hm.2 (c.1, v) List.mem_cons_self
      rw [if_pos rfl, absent]
      constructor
      · rintro (h | ⟨h, h'⟩)
        · rw [h]; exact ⟨hv, rfl⟩
        · exact absurd h'.symm h
      · rintro ⟨-, h⟩
        exact .inl (Prod.ext rfl h.symm)
    · rw [if_neg hb, or_iff_right fun h => hb (congrArg Prod.fst h).symm]

/-- Settles O39: the bytes say which cells there are, and rising addresses say their order. -/
theorem canonicalMemoryIsUnique : Obligations.CanonicalMemoryIsUnique := by
  unfold Obligations.CanonicalMemoryIsUnique
  intro m m' hm hm' h
  have hirrefl : Std.Irrefl fun c d : Host.Cell => c.1 < d.1 := ⟨fun c => Nat.lt_irrefl c.1⟩
  have hantisymm : Std.Antisymm fun c d : Host.Cell => c.1 < d.1 :=
    ⟨fun _ _ h h' => absurd h' (Nat.lt_asymm h)⟩
  refine List.Pairwise.eq_of_mem_iff hm.1 hm'.1 fun c => ?_
  rw [m.mem_iff_readByte hm, m'.mem_iff_readByte hm', h]

/-! ### Loads and stores -/

/-- A store that completes, by the physical address its translation answers (20_memory.md R85). -/
theorem memWrite_ok_of_translateAddr {s t : State} {va : Word} {w : Width} {v : Word} {pa : Nat}
    (h : memWrite s va w v = .ok t) (hpa : translateAddr s va .store s.status.s = .ok pa) :
    physWrite s pa w.bytes v = some t := by
  obtain ⟨-, pa', hpa', hw⟩ := memWrite_ok s t va w v h
  cases hpa.symm.trans hpa'
  exact hw

theorem memRead_of_misaligned {s : State} {va : Word} {w : Width} (h : va.toNat % w.bytes ≠ 0) :
    memRead s va w = .trap .loadMisaligned va :=
  if_pos h

theorem memWrite_of_misaligned {s : State} {va : Word} {w : Width} (v : Word)
    (h : va.toNat % w.bytes ≠ 0) : memWrite s va w v = .trap .storeMisaligned va :=
  if_pos h

/-- Settles O40: the load finds the place of the store, and the bytes there are the stored ones. -/
theorem storeThenLoad : Obligations.StoreThenLoad := by
  unfold Obligations.StoreThenLoad
  intro s t va va' w v hm h ha htr
  obtain ⟨-, pa, hpa, hw⟩ := memWrite_ok s t va w v h
  obtain ⟨hp, rfl⟩ := physWrite_eq_some s t pa _ v hw
  rw [memRead_of_aligned _ _ _ ha, htr, hpa]
  simp only [hp, if_true, Memory.readLE_writeLE _ hm]

/-- Settles O41: the bytes of `Memory.writeLE`, and no register. -/
theorem storeFrame : Obligations.StoreFrame := by
  unfold Obligations.StoreFrame
  intro s t va w v pa hm h hpa
  obtain ⟨-, rfl⟩ := physWrite_eq_some s t pa _ v (memWrite_ok_of_translateAddr h hpa)
  refine ⟨fun k hk => ?_, fun a ha => ?_, rfl⟩
  · rw [Memory.readByte_writeLE _ hm, if_pos (by omega), Nat.add_sub_cancel_left]
  · rw [Memory.readByte_writeLE _ hm, if_neg ha]

/-- Settles O42: the alignment check comes first. -/
theorem misalignedDataAccessTraps : Obligations.MisalignedDataAccessTraps := by
  unfold Obligations.MisalignedDataAccessTraps
  intro isa w n s h
  constructor
  · rw [execBase, execLoad, memRead_of_misaligned h]; rfl
  · rw [execBase, execStore, memWrite_of_misaligned _ h]; rfl

/-! ### The fetch -/

theorem fetch_of_misaligned {s : State} (h : s.pc.toNat % 4 ≠ 0) :
    fetch s = .trap .instrMisaligned s.pc :=
  if_pos h

section
variable {s : State} (ha : s.pc.toNat % 4 = 0)
include ha

theorem fetch_of_trap {c : Cause} {a : Word}
    (ht : translateAddr s s.pc .fetch s.status.s = .trap c a) :
    fetch s = .trap c a := by
  simp [fetch, ha, ht]

variable {pa : Nat} (ht : translateAddr s s.pc .fetch s.status.s = .ok pa)
include ht

theorem fetch_of_absent (hp : physPresent s.conf pa 4 = false) :
    fetch s = .refused .absentMemory := by
  simp [fetch, ha, ht, physRead, hp]

/-- A fetch reads the four bytes as they are in memory, where it may (20_memory.md R86, R113). -/
theorem fetch_of_coherent (hp : physPresent s.conf pa 4 = true)
    (hc : s.conf.ifetchCoherent = true ∨ noSmc s pa = true) :
    fetch s = .ok (low32 (s.mem.readLE pa 4)) := by
  rcases hc with hc | hc <;> simp [fetch, ha, ht, physRead, hp, hc]

theorem fetch_of_incoherent (hp : physPresent s.conf pa 4 = true)
    (hc : s.conf.ifetchCoherent = false) (hs : noSmc s pa = false) :
    fetch s = .refused .incoherentFetch := by
  simp [fetch, ha, ht, physRead, hp, hc, hs]

end

theorem execAtPc_of_trap {isa : Isa} {s : State} {c : Cause} {va : Word}
    (h : fetch s = .trap c va) : execAtPc isa s = .next (takeException c s.pc va s) := by
  rw [execAtPc, h]; rfl

theorem execAtPc_of_refused {isa : Isa} {s : State} {r : Refusal} (h : fetch s = .refused r) :
    execAtPc isa s = .refused r := by
  rw [execAtPc, h]

/-- Settles O48: a fetch that traps is the exception of the word at `pc`. -/
theorem fetchTraps : Obligations.FetchTraps := by
  unfold Obligations.FetchTraps
  intro isa s
  refine ⟨fun h => execAtPc_of_trap (fetch_of_misaligned h), fun c a ha ht => ?_⟩
  obtain ⟨rfl, rfl⟩ := translateAddr_trap s _ _ _ _ _ ht
  exact execAtPc_of_trap (fetch_of_trap ha ht)

/-- Settles O38: the guard of the walk, and the reads and writes that `PMEM` bounds. -/
theorem misalignedRootAndAbsentMemoryRefused :
    Obligations.MisalignedRootAndAbsentMemoryRefused := by
  unfold Obligations.MisalignedRootAndAbsentMemoryRefused
  refine ⟨fun s va kind mode hvm hc hr => ?_, fun s va w pa ha hp => ⟨fun ht => ?_, fun ht v => ?_⟩,
    fun s pa ha hp ht => ?_, fun s a hp => ?_⟩
  · exact translateAddr_of_misaligned_root kind mode hvm hc hr
  · rw [memRead_of_aligned _ _ _ ha, ht]; simp [hp]
  · rw [memWrite_of_aligned _ _ _ _ ha, ht]; simp [physWrite, hp]
  · have hf := fetch_of_absent ha ht hp
    exact ⟨hf, fun isa => execAtPc_of_refused hf⟩
  · simp [readPte, physRead, hp]

end Sys2Proof.Machine
end

section
/-! SUPPORT. An encoded instruction decodes to itself (30_encoding.md R143), and one placed at the next
fetch is what the next step runs (log 38). -/

namespace Sys2Proof

/-! ### The fields of a word that operands are placed in -/

theorem field5_or_left {a b : BitVec 32} {low : Nat} (hb : b.extractLsb' low 5 = 0#5) :
    field5 (a ||| b) low = field5 a low := by
  rw [field5, BitVec.extractLsb'_or, hb, BitVec.or_zero, field5]

theorem field5_or_right {a b : BitVec 32} {low : Nat} (ha : a.extractLsb' low 5 = 0#5) :
    field5 (a ||| b) low = field5 b low := by
  rw [field5, BitVec.extractLsb'_or, ha, BitVec.zero_or, field5]

/-- An operand number is read where it was placed (30_encoding.md R142). -/
theorem field5_place5 (n : Fin 32) {low : Nat} (h : low + 5 ≤ 32) : field5 (place5 n low) low = n := by
  have bits : (place5 n low).extractLsb' low 5 = BitVec.ofNat 5 n.val := by
    apply BitVec.eq_of_getLsbD_eq
    intro i hi
    have h1 : low + i < 32 := by omega
    have h2 : i < 32 := by omega
    rw [BitVec.getLsbD_extractLsb', place5, BitVec.getLsbD_shiftLeft, Nat.add_sub_cancel_left,
      BitVec.getLsbD_ofNat, BitVec.getLsbD_ofNat]
    simp [hi, h1, h2]
  rw [field5, bits]
  exact Fin.ext (Nat.mod_eq_of_lt n.isLt)

/-- An operand number is not seen in another field. -/
theorem extractLsb'_place5 (n : Fin 32) {low q : Nat} (h : low + 5 ≤ q ∨ q + 5 ≤ low) :
    (place5 n low).extractLsb' q 5 = 0#5 := by
  apply BitVec.eq_of_getLsbD_eq
  intro i hi
  rw [BitVec.getLsbD_extractLsb', place5, BitVec.getLsbD_shiftLeft, BitVec.getLsbD_ofNat]
  rcases h with h | h
  · have hn : n.val.testBit (q + i - low) = false :=
      Nat.testBit_lt_two_pow (Nat.lt_of_lt_of_le n.isLt
        (Nat.pow_le_pow_right Nat.two_pos (by omega : 5 ≤ q + i - low)))
    simp [hn]
  · have hlt : q + i < low := by omega
    simp [hlt]

/-! ### The rows of the table -/

/-- A row covers its own bits with whatever is placed outside its mask (30_encoding.md R143). -/
theorem OpcodeRow.covers_or_or {r : OpcodeRow} (hr : r.bits &&& r.mask = r.bits) {a b : BitVec 32}
    (ha : a &&& r.mask = 0#32) (hb : b &&& r.mask = 0#32) : r.covers (r.bits ||| a ||| b) = true := by
  rw [OpcodeRow.covers, beq_iff_eq, BitVec.and_or_distrib_right, BitVec.and_or_distrib_right, hr, ha, hb,
    BitVec.or_zero, BitVec.or_zero]

/-- Under the mask a covered word is the row's (30_encoding.md R143). -/
theorem OpcodeRow.getLsbD_of_covers {r : OpcodeRow} {w : BitVec 32} (h : r.covers w = true) {i : Nat}
    (hi : r.mask.getLsbD i = true) : w.getLsbD i = r.bits.getLsbD i := by
  rw [OpcodeRow.covers, beq_iff_eq] at h
  rw [← h, BitVec.getLsbD_and, hi, Bool.and_true]

theorem rowMfpcr_covers (rd cr : Fin 32) :
    rowMfpcr.covers (rowMfpcr.bits ||| place5 rd 27 ||| place5 cr 22) = true := by
  have hrd : ∀ n, place5 n 27 &&& rowMfpcr.mask = 0#32 := by decide
  have hcr : ∀ n, place5 n 22 &&& rowMfpcr.mask = 0#32 := by decide
  exact OpcodeRow.covers_or_or (by decide) (hrd rd) (hcr cr)

theorem rowMtpcr_covers (cr rs : Fin 32) :
    rowMtpcr.covers (rowMtpcr.bits ||| place5 cr 22 ||| place5 rs 17) = true := by
  have hcr : ∀ n, place5 n 22 &&& rowMtpcr.mask = 0#32 := by decide
  have hrs : ∀ n, place5 n 17 &&& rowMtpcr.mask = 0#32 := by decide
  exact OpcodeRow.covers_or_or (by decide) (hcr cr) (hrs rs)

/-- Bit 7 tells `mtpcr` from `mfpcr` (30_encoding.md R143). -/
theorem rowMfpcr_covers_mtpcr (a b : BitVec 32) :
    rowMfpcr.covers (rowMtpcr.bits ||| a ||| b) = false := by
  rw [← Bool.not_eq_true]
  intro h
  have h7 := OpcodeRow.getLsbD_of_covers h (i := 7) (by decide)
  have hset : rowMtpcr.bits.getLsbD 7 = true := by decide
  have hclear : rowMfpcr.bits.getLsbD 7 = false := by decide
  rw [BitVec.getLsbD_or, BitVec.getLsbD_or, hset, hclear, Bool.true_or, Bool.true_or] at h7
  cases h7

/-- An encoded instruction decodes to itself (30_encoding.md R143). -/
theorem decodeWord_encodeWord (i : Instr) (h : i.wellFormed = true) :
    decodeWord (encodeWord i) = some i := by
  cases i with
  | mfpcr rd cr =>
    have hrd : field5 (encodeWord (.mfpcr rd cr)) 27 = rd := by
      rw [encodeWord, field5_or_left (extractLsb'_place5 _ (by decide)),
        field5_or_right (by decide), field5_place5 _ (by decide)]
    have hcr : field5 (encodeWord (.mfpcr rd cr)) 22 = cr.number := by
      rw [encodeWord, BitVec.or_assoc, field5_or_right (by decide),
        field5_or_right (extractLsb'_place5 _ (by decide)), field5_place5 _ (by decide)]
    have hrow : rowMfpcr.covers (encodeWord (.mfpcr rd cr)) = true := rowMfpcr_covers rd cr.number
    rw [decodeWord, if_pos hrow, hrd, hcr, Pcr.ofNumber_number cr h]
  | mtpcr rs cr =>
    have hrs : field5 (encodeWord (.mtpcr rs cr)) 17 = rs := by
      rw [encodeWord, BitVec.or_assoc, field5_or_right (by decide),
        field5_or_right (extractLsb'_place5 _ (by decide)), field5_place5 _ (by decide)]
    have hcr : field5 (encodeWord (.mtpcr rs cr)) 22 = cr.number := by
      rw [encodeWord, field5_or_left (extractLsb'_place5 _ (by decide)),
        field5_or_right (by decide), field5_place5 _ (by decide)]
    have hrow : rowMtpcr.covers (encodeWord (.mtpcr rs cr)) = true := rowMtpcr_covers cr.number rs
    have hother : rowMfpcr.covers (encodeWord (.mtpcr rs cr)) = false := rowMfpcr_covers_mtpcr _ _
    rw [decodeWord, if_neg (by simp [hother]), if_pos hrow, hrs, hcr, Pcr.ofNumber_number cr h]
  | eret => decide

namespace Machine

/-! ### The placed instruction -/

theorem fetchAddress_of_translateAddr {s : State} {pa : Nat}
    (h : translateAddr s s.pc .fetch s.status.s = .ok pa) : fetchAddress s = pa := by
  rw [fetchAddress, h]

/-- A word stored and read back at four bytes is itself. -/
theorem low32_setWidth_and_mask (w : BitVec 32) :
    low32 (w.setWidth 64 &&& BitVec.ofNat 64 (2 ^ (8 * 4) - 1)) = w := by
  apply BitVec.eq_of_getLsbD_eq
  intro i hi
  have hmask : (BitVec.ofNat 64 (2 ^ (8 * 4) - 1)).getLsbD i = true := by
    rw [BitVec.getLsbD_ofNat, Nat.testBit_two_pow_sub_one]
    simp [hi, show i < 64 by omega]
  rw [low32, BitVec.getLsbD_setWidth, BitVec.getLsbD_and, hmask, BitVec.getLsbD_setWidth]
  simp [hi, show i < 64 by omega]

/-- Placing a word is no store of the processor's (20_memory.md R113, log 38). -/
theorem noSmc_placeInstruction (s : State) (w : BitVec 32) :
    noSmc (placeInstruction s w) (fetchAddress s) = true := by
  simp only [noSmc, disjointFrom, placeInstruction, List.all_eq_true, List.mem_range,
    Bool.not_eq_true', List.contains_eq_mem, decide_eq_false_iff_not, List.mem_filter,
    Bool.or_eq_true, decide_eq_true_eq]
  rintro k hk ⟨-, h⟩
  omega

/-- What a state fetches once a word is placed is the word, where its fetch is untranslated. -/
theorem fetch_placeInstruction (s : State) (w : BitVec 32) (hm : s.mem.Wf)
    (hvm : s.status.vm = false) (ha : s.pc.toNat % 4 = 0)
    (hc : s.status.s64 = false ∨ canonical s.pc = true)
    (hp : physPresent s.conf s.pc.toNat 4 = true) : fetch (placeInstruction s w) = .ok w := by
  have untranslated (t : State) (hst : t.status = s.status) (hpc : t.pc = s.pc) :
      translateAddr t t.pc .fetch t.status.s = .ok s.pc.toNat := by
    rw [← hpc]
    exact translateAddr_of_not_vm _ _ (by rwa [hst])
      (by rw [hst, hpc]; exact hc.imp_right .inl)
  have hpa := fetchAddress_of_translateAddr (untranslated s rfl rfl)
  have hsmc := noSmc_placeInstruction s w
  rw [hpa] at hsmc
  have hmem : (placeInstruction s w).mem = s.mem.writeLE s.pc.toNat 4 (w.setWidth 64) := by
    rw [← hpa]; rfl
  have hf := fetch_of_coherent (s := placeInstruction s w) ha (untranslated _ rfl rfl) hp (.inr hsmc)
  rw [hf, hmem, Memory.readLE_writeLE _ hm, low32_setWidth_and_mask]

/-- Settles O51: the step takes the `defer` placed with the word, fetches the word and decodes it. -/
theorem placedInstructionRuns : Obligations.PlacedInstructionRuns := by
  unfold Obligations.PlacedInstructionRuns
  intro s i hi hm he hw hvm ha hc hp t
  have ht : t = placeInstruction s (encodeWord i) := by
    have hword : BitVec.ofNat 32 ((encodeWord i).toNat % 2 ^ 32) = encodeWord i := by
      rw [Nat.mod_eq_of_lt (encodeWord i).isLt, BitVec.ofNat_toNat, BitVec.setWidth_eq]
    rw [← hword]; rfl
  have hf : fetch t = .ok (encodeWord i) := by
    rw [ht]; exact fetch_placeInstruction s _ hm hvm ha hc hp
  calc step t = cpuMove Isa.default false { t with agenda := s.agenda } := rfl
    _ = execAtPc Isa.default { t with agenda := s.agenda } := cpuMove_defer _ _ he hw
    _ = exec i { t with agenda := s.agenda } :=
      execAtPc_of_privileged _ _ _ i ((fetch_withAgenda t s.agenda).trans hf)
        (decodeWord_encodeWord i hi)

end Machine

end Sys2Proof
end

section
/-! SUPPORT. Where the model stops by name: incoherent reads, mixed width and a `pc` that leaves its
register. -/

namespace Sys2Proof.Machine

theorem noSmc_of_mem {s : State} {pa k : Nat} (hk : k < 4) (h : pa + k ∈ s.storedBytes) :
    noSmc s pa = false :=
  disjointFrom_of_mem _ _ _ k hk h

/-- A page table is stable neither after `ptbr` moved under it nor over a byte stored to (20_memory.md
R114). -/
theorem ptStable_eq_false {s : State} {a n k : Nat}
    (h : s.ptbrUnderVm = true ∨ (k < n ∧ a + k ∈ s.storedUnderVm)) : ptStable s a n = false := by
  rcases h with h | ⟨hk, hmem⟩
  · simp [ptStable, h]
  · simp [ptStable, disjointFrom_of_mem _ _ _ k hk hmem]

theorem readPte_of_incoherent {s : State} {a : Nat}
    (hp : physPresent s.conf a (Paging.of s.status.s64).pteSize = true)
    (hc : s.conf.tlbCoherent = false)
    (hst : ptStable s a (Paging.of s.status.s64).pteSize = false) :
    readPte s a = .error .incoherentWalk := by
  simp [readPte, physRead, hp, hc, hst]

/-- A store records each byte it writes (20_memory.md R113, R114). -/
theorem physWrite_records {s t : State} {pa n : Nat} {v : Word} (h : physWrite s pa n v = some t)
    {k : Nat} (hk : k < n) :
    pa + k ∈ t.storedBytes ∧ (s.status.vm = true → pa + k ∈ t.storedUnderVm) := by
  obtain ⟨-, rfl⟩ := physWrite_eq_some s t pa n v h
  have recorded (l : List Nat) : pa + k ∈ insertAddrs pa n l :=
    (mem_insertAddrs ..).mpr (.inl (by omega))
  refine ⟨recorded _, fun hvm => ?_⟩
  simp only [hvm, if_true]
  exact recorded _

theorem cpuMove_of_mixedWidth (isa : Isa) (b : Bool) {s : State} (he : s.errmode = false)
    (hm : s.mixedWidth = true) : cpuMove isa b s = .refused .mixedWidth := by
  simp [cpuMove, he, hm]

/-! ### A `pc` that leaves its register -/

/-- A target leaves the register below zero and from `2^XPRLEN_IMPL` up (10_state.md R26). -/
theorem pcLeaves_iff (c : Config) (target : Int) :
    pcLeaves c target = true ↔ target < 0 ∨ ((2 ^ c.xlen : Nat) : Int) ≤ target := by
  simp only [pcLeaves, Bool.or_eq_true, decide_eq_true_eq]

/-- An access to a number the policy lets through goes on (10_state.md R30). -/
theorem onPcr_of_admitted {cr : Pcr} {s : State} (act : State → Result)
    (h : Pcr.isUnused cr = false ∨ s.conf.unusedPcr = .readZeroIgnoreWrite) :
    onPcr cr s act = act s := by
  rcases onPcr_cases cr s act with h' | ⟨hu, hp, -⟩ | ⟨hu, hp, -⟩
  · exact h'
  all_goals rw [hu, hp] at h; simp at h

section
variable {s : State} (hs : s.status.s = true) (hp : s.conf.pcWrap = .refuse)
  (hpc : 2 ^ s.conf.xlen ≤ s.pc.toNat + 4) {cr : Pcr}
  (hu : Pcr.isUnused cr = false ∨ s.conf.unusedPcr = .readZeroIgnoreWrite)
include hs hp hpc hu

theorem execMfpcr_of_leaves (rd : RegIdx) : execMfpcr rd cr s = .refused .pcWrap := by
  rw [execMfpcr, inSupervisorMode_of_supervisor _ _ hs, onPcr_of_admitted _ hu]
  apply advance_of_leaves
  · rwa [writeX_conf, readPcr_conf]
  · rwa [writeX_conf, writeX_pc, readPcr_conf, readPcr_pc]

theorem execMtpcr_of_leaves (rs : RegIdx)
    (hr : ¬ (Pcr.isReadOnly cr = true ∧ s.conf.roWrite = .refuse)) :
    execMtpcr rs cr s = .refused .pcWrap := by
  rw [execMtpcr, inSupervisorMode_of_supervisor _ _ hs, onPcr_of_admitted _ hu, if_neg hr]
  apply advance_of_leaves
  · rwa [writePcr_conf]
  · rwa [writePcr_conf, writePcr_pc]

end

theorem execLoad_of_ok {isa : BaseIsa} {w : BitVec 32} {n : Width} {s : State} {loaded : Word}
    (h : memRead s (baseAddress isa w s) n = .ok loaded) :
    execLoad isa w n s = finish (baseEffect isa w s loaded) s := by
  rw [execLoad, h]

theorem execStore_of_ok {isa : BaseIsa} {w : BitVec 32} {n : Width} {s m : State}
    (h : memWrite s (baseAddress isa w s) n (isa.storeData s.rv64InForce w s.userView) = .ok m) :
    execStore isa w n s = finish (baseEffect isa w s 0) m := by
  rw [execStore, h]

/-- Settles O52, refusal by refusal. -/
theorem unmodelledSituationsRefused : Obligations.UnmodelledSituationsRefused := by
  unfold Obligations.UnmodelledSituationsRefused
  refine ⟨fun s pa k ha ht hp hc hk hmem => ?_, fun s a k hp hc h => ?_,
    fun s t va w v pa k h hpa hk => ?_, fun isa b s he h64 hrv => ?_,
    fun s x cr hs hp hpc hu => ?_, fun isa w s hp => ?_⟩
  · exact fetch_of_incoherent ha ht hp hc (noSmc_of_mem hk hmem)
  · exact readPte_of_incoherent hp hc (ptStable_eq_false h)
  · exact physWrite_records (memWrite_ok_of_translateAddr h hpa) hk
  · have hm : s.mixedWidth = true := by rw [State.mixedWidth, h64, State.rv64InForce, hrv]; rfl
    exact cpuMove_of_mixedWidth isa b he hm
  · exact ⟨execMfpcr_of_leaves hs hp hpc hu x, execMtpcr_of_leaves hs hp hpc hu x⟩
  · refine ⟨fun h => ?_, fun n loaded hl h => ?_, fun n m hw h => ?_⟩
    · exact finish_of_leaves _ _ hp ((pcLeaves_iff ..).mpr h)
    · exact (execLoad_of_ok hl).trans (finish_of_leaves _ _ hp ((pcLeaves_iff ..).mpr h))
    · have hconf := memWrite_conf _ _ _ _ _ hw
      refine (execStore_of_ok hw).trans (finish_of_leaves _ _ (by rwa [hconf]) ?_)
      rw [hconf]
      exact (pcLeaves_iff ..).mpr h

end Sys2Proof.Machine
end

section
/-! SUPPORT. The default encoding is exact (30_encoding.md R143, log 7): an instruction's bytes decode to
it, a word that decodes is its instruction's, and no word matches two rows. -/

namespace Sys2Proof

/-! ### A covered word is its row with its operands -/

/-- The operand number read at a field and placed there again is the field of the word. -/
theorem place5_field5 (w : BitVec 32) (low : Nat) :
    place5 (field5 w low) low = w &&& place5 31 low := by
  apply BitVec.eq_of_getLsbD_eq
  intro i hi
  have read (j : Nat) : (field5 w low).val.testBit j = (decide (j < 5) && w.getLsbD (low + j)) := by
    rw [← BitVec.getLsbD_extractLsb']; rfl
  have ones (j : Nat) : (31 : Fin 32).val.testBit j = decide (j < 5) := Nat.testBit_two_pow_sub_one 5 j
  have hsub : i - low < 32 := by omega
  rw [place5, place5, BitVec.getLsbD_and, BitVec.getLsbD_shiftLeft, BitVec.getLsbD_shiftLeft,
    BitVec.getLsbD_ofNat, BitVec.getLsbD_ofNat, read, ones]
  by_cases hlow : i < low
  · simp [hlow]
  · simp [hi, hsub, hlow, show low + (i - low) = i by omega, Bool.and_comm]

/-- A word a row covers is the row's bits with the two operands, where the mask and the two operand
fields are the whole word (30_encoding.md R142, R143). -/
theorem OpcodeRow.eq_of_covers {r : OpcodeRow} {w : BitVec 32} {p q : Nat} (h : r.covers w = true)
    (hall : r.mask ||| place5 31 p ||| place5 31 q = BitVec.allOnes 32) :
    r.bits ||| place5 (field5 w p) p ||| place5 (field5 w q) q = w := by
  rw [OpcodeRow.covers, beq_iff_eq] at h
  rw [place5_field5, place5_field5, ← h, ← BitVec.and_or_distrib_left, ← BitVec.and_or_distrib_left,
    hall, BitVec.and_allOnes]

/-- Everything a word that decodes can be: one the row of its instruction covers. -/
theorem decodeWord_cases {w : BitVec 32} {i : Instr} (h : decodeWord w = some i) :
    (rowMfpcr.covers w = true ∧ i = .mfpcr (field5 w 27) (.ofNumber (field5 w 22))) ∨
    (rowMtpcr.covers w = true ∧ i = .mtpcr (field5 w 17) (.ofNumber (field5 w 22))) ∨
    (rowEret.covers w = true ∧ i = .eret) := by
  unfold decodeWord at h
  split at h
  · next hr => exact .inl ⟨hr, (Option.some.inj h).symm⟩
  · split at h
    · next hr => exact .inr (.inl ⟨hr, (Option.some.inj h).symm⟩)
    · split at h
      · next hr => exact .inr (.inr ⟨hr, (Option.some.inj h).symm⟩)
      · cases h

theorem encodeWord_of_decodeWord {w : BitVec 32} {i : Instr} (h : decodeWord w = some i) :
    encodeWord i = w := by
  rcases decodeWord_cases h with ⟨hr, rfl⟩ | ⟨hr, rfl⟩ | ⟨hr, rfl⟩
  · rw [encodeWord, Pcr.number_ofNumber]
    exact OpcodeRow.eq_of_covers hr (by decide)
  · rw [encodeWord, Pcr.number_ofNumber]
    exact OpcodeRow.eq_of_covers hr (by decide)
  · have hall : w &&& rowEret.mask = w := BitVec.and_allOnes
    rw [encodeWord, ← hall]
    exact (beq_iff_eq.mp hr).symm

theorem wellFormed_of_decodeWord {w : BitVec 32} {i : Instr} (h : decodeWord w = some i) :
    i.wellFormed = true := by
  rcases decodeWord_cases h with ⟨-, rfl⟩ | ⟨-, rfl⟩ | ⟨-, rfl⟩
  · exact Pcr.wellFormed_ofNumber _
  · exact Pcr.wellFormed_ofNumber _
  · rfl

/-- A word decodes to an instruction exactly when it is that instruction's word. -/
theorem decodeWord_eq_some_iff {w : BitVec 32} {i : Instr} :
    decodeWord w = some i ↔ encodeWord i = w ∧ i.wellFormed = true := by
  constructor
  · exact fun h => ⟨encodeWord_of_decodeWord h, wellFormed_of_decodeWord h⟩
  · rintro ⟨rfl, hi⟩
    exact decodeWord_encodeWord i hi

/-! ### The rows are disjoint -/

/-- Two rows that fix one bit differently share no word (30_encoding.md R141). -/
theorem OpcodeRow.not_covers_both {r q : OpcodeRow} (i : Nat) (hr : r.mask.getLsbD i = true)
    (hq : q.mask.getLsbD i = true) (hne : r.bits.getLsbD i ≠ q.bits.getLsbD i) (w : BitVec 32) :
    ¬ (r.covers w = true ∧ q.covers w = true) := by
  rintro ⟨hrw, hqw⟩
  exact hne ((r.getLsbD_of_covers hrw hr).symm.trans (q.getLsbD_of_covers hqw hq))

/-- Bit 7 tells `mtpcr` from the other two and bit 8 `mfpcr` from `eret` (30_encoding.md R143). -/
theorem opcodeTable_pairwise_disjoint :
    opcodeTable.Pairwise (fun r q => ∀ w, ¬ (r.covers w = true ∧ q.covers w = true)) := by
  have mfpcr_mtpcr := OpcodeRow.not_covers_both (r := rowMfpcr) (q := rowMtpcr) 7
    (by decide) (by decide) (by decide)
  have mfpcr_eret := OpcodeRow.not_covers_both (r := rowMfpcr) (q := rowEret) 8
    (by decide) (by decide) (by decide)
  have mtpcr_eret := OpcodeRow.not_covers_both (r := rowMtpcr) (q := rowEret) 7
    (by decide) (by decide) (by decide)
  refine .cons ?_ (List.pairwise_pair.mpr mtpcr_eret)
  intro q hq
  rcases List.mem_pair.mp hq with rfl | rfl
  · exact mfpcr_mtpcr
  · exact mfpcr_eret

/-! ### The obligations -/

/-- Settles O2: the bytes join to the word, and the word decodes to its instruction. -/
theorem decodeOfEncode : Obligations.DecodeOfEncode := by
  unfold Obligations.DecodeOfEncode
  intro i rest hi
  rw [encode, decodeBytes_wordBytes, decodeWord_encodeWord i hi]

/-- Settles O3: a covered word is its row with the operands read from it. -/
theorem encodeOfDecode : Obligations.EncodeOfDecode := by
  unfold Obligations.EncodeOfDecode
  exact fun w i => decodeWord_eq_some_iff.mp

/-- Settles O4: the rows differ in a bit both fix, and an operand pair's word is the encoder's. -/
theorem opcodeRowsDisjointAndComplete : Obligations.OpcodeRowsDisjointAndComplete := by
  unfold Obligations.OpcodeRowsDisjointAndComplete
  refine ⟨opcodeTable_pairwise_disjoint, fun x n => ⟨?_, ?_⟩⟩
  · exact ⟨_, decodeWord_encodeWord (.mfpcr x (.ofNumber n)) (Pcr.wellFormed_ofNumber n)⟩
  · exact ⟨_, decodeWord_encodeWord (.mtpcr x (.ofNumber n)) (Pcr.wellFormed_ofNumber n)⟩

/-- Settles O1: six words are the encoder's, and no row covers the other four. -/
theorem tableWordsDecode : Obligations.TableWordsDecode := by
  unfold Obligations.TableWordsDecode
  have encoded {w : BitVec 32} {i : Instr} (hw : encodeWord i = w) (hi : i.wellFormed = true) :
      decodeWord w = some i := decodeWord_eq_some_iff.mpr ⟨hw, hi⟩
  exact ⟨encoded (by decide) rfl, encoded (by decide) rfl, encoded (by decide) rfl,
    encoded (by decide) rfl, encoded (by decide) rfl, encoded (by decide) rfl,
    by decide, by decide, by decide, by decide⟩

namespace Machine

theorem execAtPc_of_illegal {isa : Isa} {s : State} {w : BitVec 32} (hf : fetch s = .ok w)
    (hd : isa.decode s.rv64InForce w = .illegal) :
    execAtPc isa s = .next (takeException .illegalInstr s.pc 0 s) := by
  simp only [execAtPc, hf, hd, raise]

/-- Settles O49: an illegal word is exception 2 of the word at `pc`, and with `ET` set exception entry
changes what it says and nothing else. -/
theorem illegalWordTraps : Obligations.IllegalWordTraps := by
  unfold Obligations.IllegalWordTraps
  intro isa s w hf hd
  have hx := execAtPc_of_illegal hf hd
  refine ⟨hx, fun het => ⟨_, hx, ?_⟩⟩
  rw [takeException_of_et _ _ _ _ het]
  exact ⟨rfl, rfl, rfl⟩

end Machine

end Sys2Proof
end

section
/-! SUPPORT. `mfpcr`, `mtpcr` and `eret` in either mode (40_privileged.md R170 to R178): what each leaves
in the register it names, and what it leaves alone. -/

namespace Sys2Proof.Machine

/-! ### User mode -/

/-- The check of the mode comes first in each of the three instructions (40_privileged.md R170). -/
theorem exec_of_user (i : Instr) {s : State} (hs : s.status.s = false) :
    exec i s = .next (takeException .privilegedInstr s.pc 0 s) := by
  cases i with
  | mfpcr rd cr => rw [exec_mfpcr, execMfpcr, inSupervisorMode_of_user _ _ hs, raise]
  | mtpcr rs cr => rw [exec_mtpcr, execMtpcr, inSupervisorMode_of_user _ _ hs, raise]
  | eret => rw [exec_eret, execEret, inSupervisorMode_of_user _ _ hs, raise]

/-- Settles O5: with `ET` set the exception is entry to the handler. -/
theorem privilegedInstructionsTrapInUserMode : Obligations.PrivilegedInstructionsTrapInUserMode := by
  unfold Obligations.PrivilegedInstructionsTrapInUserMode
  intro i s hs
  have hx := exec_of_user i hs
  refine ⟨hx, fun het => ⟨_, hx, ?_⟩⟩
  rw [takeException_of_et _ _ _ _ het]
  exact ⟨rfl, rfl, rfl, rfl, rfl⟩

/-! ### A 32-bit control register as the value of an x register -/

section
variable (v : BitVec 32) (s : State)

theorem ext32_of_rv32 (h : s.conf.providesRv64 = false) : ext32 v s = (v.setWidth 64, s) := by
  simp [ext32, h]

theorem ext32_of_zero (h : s.conf.providesRv64 = true) (hp : s.conf.pcr32Ext = .zero) :
    ext32 v s = (v.setWidth 64, s) := by
  simp [ext32, h, hp]

theorem ext32_of_sign (h : s.conf.providesRv64 = true) (hp : s.conf.pcr32Ext = .sign) :
    ext32 v s = (v.signExtend 64, s) := by
  simp [ext32, h, hp]

theorem ext32_of_unfixed (h : s.conf.providesRv64 = true) (hp : s.conf.pcr32Ext = .unfixed) :
    ext32 v s = (low32 s.draw.1 ++ v, s.draw.2) := by
  simp [ext32, h, hp]

/-- However it is widened, the low half is the register (40_privileged.md R172). -/
theorem low32_ext32 : low32 (ext32 v s).1 = v := by
  have zeroExtended : low32 (v.setWidth 64) = v := by
    rw [low32, BitVec.setWidth_setWidth_of_le _ (by decide), BitVec.setWidth_eq]
  cases h : s.conf.providesRv64 with
  | false => rw [ext32_of_rv32 v s h]; exact zeroExtended
  | true =>
    cases hp : s.conf.pcr32Ext with
    | zero => rw [ext32_of_zero v s h hp]; exact zeroExtended
    | sign =>
      rw [ext32_of_sign v s h hp]
      rw [low32, BitVec.signExtend_eq_append_of_le (by decide)]
      exact BitVec.setWidth_append_eq_right
    | unfixed =>
      rw [ext32_of_unfixed v s h hp]
      exact BitVec.setWidth_append_eq_right

/-- The widened value is of the implementation's width (00_scope.md R7). -/
theorem fits_ext32 : s.conf.Fits (ext32 v s).1 := by
  cases h : s.conf.providesRv64 with
  | true => simp [Config.Fits, Config.fit, h]
  | false =>
    rw [ext32_of_rv32 v s h, Config.fits_iff, Config.xlen, h, BitVec.toNat_setWidth_of_le (by decide)]
    exact v.isLt

end

/-! ### `mfpcr` in supervisor mode -/

/-- What `mfpcr` that goes on leaves (40_privileged.md R171): the value read in the destination, the `pc`
4 further, the count of free values as the read left it, and the rest as before. -/
structure MfpcrLeaves (rd : RegIdx) (cr : Pcr) (s t : State) : Prop where
  x : ∀ i, t.readX i = if i = rd ∧ i ≠ 0 then s.conf.fit (readPcr cr s).1 else s.readX i
  pc : t.pc = s.conf.fit (s.pc + 4)
  draws : t.draws = (readPcr cr s).2.draws
  frame : t = { s with x := t.x, pc := t.pc, draws := t.draws }

theorem mfpcrLeaves_writeX_withPc (rd : RegIdx) (cr : Pcr) (s : State) :
    MfpcrLeaves rd cr s
      (((readPcr cr s).2.writeX rd (readPcr cr s).1).withPc (s.conf.fit (s.pc + 4))) where
  x i := by rw [readX_withPc, readX_writeX, readPcr_conf, readX_readPcr]
  pc := rfl
  draws := writeX_draws ..
  frame := mfpcr_frame ..

/-- `mfpcr` of a register of Table 1 completes (40_privileged.md R171). -/
theorem exec_mfpcr_completes (rd : RegIdx) {cr : Pcr} {s : State} (hs : s.status.s = true)
    (ha : s.CanAdvance) (hu : Pcr.isUnused cr = false) :
    ∃ t, exec (.mfpcr rd cr) s = .next t ∧ MfpcrLeaves rd cr s t :=
  ⟨_, execMfpcr_of_supervisor rd cr s hs ha hu, mfpcrLeaves_writeX_withPc rd cr s⟩

/-- Where the number is no illegal instruction, `mfpcr` that goes on has read (40_privileged.md R171). -/
theorem mfpcrLeaves_of_exec {rd : RegIdx} {cr : Pcr} {s t : State} (hs : s.status.s = true)
    (hp : ¬ (Pcr.isUnused cr = true ∧ s.conf.unusedPcr = .illegalInstruction))
    (h : exec (.mfpcr rd cr) s = .next t) : MfpcrLeaves rd cr s t := by
  rw [exec_mfpcr] at h
  rcases execMfpcr_cases rd cr s with ⟨_, -, hu | hi⟩ | ⟨_, hr⟩ | ⟨-, hn⟩
  · rw [hs] at hu; cases hu
  · exact absurd hi hp
  · rw [hr] at h; cases h
  · rw [hn] at h; cases h
    exact mfpcrLeaves_writeX_withPc rd cr s

/-- Settles O6: a full-width register is read without a draw. -/
theorem mfpcrReadsFullWidthRegister : Obligations.MfpcrReadsFullWidthRegister := by
  unfold Obligations.MfpcrReadsFullWidthRegister
  intro s rd hs ha p hp
  have hread : Pcr.isUnused p.1 = false ∧ readPcr p.1 s = (p.2, s) := by
    simp only [List.mem_cons, List.not_mem_nil, or_false] at hp
    rcases hp with rfl | rfl | rfl | rfl | rfl | rfl | rfl | rfl <;> exact ⟨rfl, rfl⟩
  obtain ⟨hu, hr⟩ := hread
  obtain ⟨t, ht, hx, hpc, hdraws, hframe⟩ := exec_mfpcr_completes rd hs ha hu
  rw [hr] at hx hdraws
  rw [hdraws] at hframe
  exact ⟨t, ht, hx, hpc, hframe⟩

/-- Settles O7: a 32-bit register is read through `ext32`. -/
theorem mfpcrExtends32BitRegister : Obligations.MfpcrExtends32BitRegister := by
  unfold Obligations.MfpcrExtends32BitRegister
  intro s rd hs ha p hp
  have hread : Pcr.isUnused p.1 = false ∧ readPcr p.1 s = ext32 p.2 s := by
    simp only [List.mem_cons, List.not_mem_nil, or_false] at hp
    rcases hp with rfl | rfl | rfl | rfl <;> exact ⟨rfl, rfl⟩
  obtain ⟨hu, hr⟩ := hread
  obtain ⟨t, ht, hx, hpc, -, hframe⟩ := exec_mfpcr_completes rd hs ha hu
  rw [hr, fits_ext32] at hx
  refine ⟨t, (ext32 p.2 s).1, ht, hx, low32_ext32 p.2 s, fun h => ?_, fun h hz => ?_, fun h hz => ?_,
    hpc, hframe⟩
  · rw [ext32_of_rv32 _ _ h]
  · rw [ext32_of_zero _ _ h hz]
  · rw [ext32_of_sign _ _ h hz]

/-- Settles O8: what `mfpcr` that goes on leaves in the registers it does not name. -/
theorem mfpcrFrame : Obligations.MfpcrFrame := by
  unfold Obligations.MfpcrFrame
  intro s t rd cr hs hp h
  obtain ⟨hx, -, -, hframe⟩ := mfpcrLeaves_of_exec hs hp h
  refine ⟨fun i hi => ?_, fun a => ?_, hframe⟩
  · rw [hx, if_neg fun hrd => hi hrd.1]
  · rw [hframe]

/-! ### `mtpcr` in supervisor mode -/

section
variable (rs : RegIdx) {cr : Pcr} {s : State} (hs : s.status.s = true)
include hs

/-- `mtpcr` to a writable register of Table 1 completes (40_privileged.md R174). -/
theorem exec_mtpcr_of_writable (ha : s.CanAdvance) (hu : Pcr.isUnused cr = false)
    (hr : Pcr.isReadOnly cr = false) :
    exec (.mtpcr rs cr) s =
      .next ((writePcr cr (s.readX rs) s).withPc (s.conf.fit (s.pc + 4))) :=
  execMtpcr_of_supervisor rs cr s hs ha hu hr

/-- `mtpcr` to a register of Table 1 writes it, unless it is read-only and `RO_WRITE` refuses the write
(40_privileged.md R174, R176). -/
theorem exec_mtpcr_of_used (hu : Pcr.isUnused cr = false) :
    exec (.mtpcr rs cr) s =
      if Pcr.isReadOnly cr = true ∧ s.conf.roWrite = .refuse then .refused .readOnlyPcr
      else advance (writePcr cr (s.readX rs) s) := by
  rw [exec_mtpcr, execMtpcr, inSupervisorMode_of_supervisor _ _ hs, onPcr_of_admitted _ (.inl hu)]

/-- Where the number is no illegal instruction, `mtpcr` that goes on has written (40_privileged.md
R174). -/
theorem eq_writePcr_of_exec_mtpcr {t : State}
    (hp : ¬ (Pcr.isUnused cr = true ∧ s.conf.unusedPcr = .illegalInstruction))
    (h : exec (.mtpcr rs cr) s = .next t) :
    t = (writePcr cr (s.readX rs) s).withPc (s.conf.fit (s.pc + 4)) := by
  rw [exec_mtpcr] at h
  rcases execMtpcr_cases rs cr s with ⟨_, -, hu | hi⟩ | ⟨_, hr⟩ | ⟨-, hn⟩
  · rw [hs] at hu; cases hu
  · exact absurd hi hp
  · rw [hr] at h; cases h
  · rw [hn] at h; cases h; rfl

end

theorem writeCount_of_ne {v : BitVec 32} {s : State} (h : v ≠ s.compare) :
    writeCount v s = { s with count := v } := by
  rw [writeCount, if_neg h]

theorem writeCount_of_eq {v : BitVec 32} {s : State} (h : v = s.compare) :
    writeCount v s =
      { s with
        count := v
        timerIp := s.timerIp || s.draw.1.getLsbD 0
        draws := s.draws + 1 } := by
  rw [writeCount, if_pos h]

/-- A write of `count` changes the timer's count and request, and takes at most one free value
(40_privileged.md R175). -/
theorem writeCount_frame (v : BitVec 32) (s : State) :
    writeCount v s =
      { s with
        count := v
        timerIp := (writeCount v s).timerIp
        draws := (writeCount v s).draws } := by
  by_cases h : v = s.compare
  · rw [writeCount_of_eq h]
  · rw [writeCount_of_ne h]

/-- Settles O11, register by register. -/
theorem mtpcrWritesRegister : Obligations.MtpcrWritesRegister := by
  unfold Obligations.MtpcrWritesRegister
  intro s rs hs ha v next
  have writes {cr : Pcr} := exec_mtpcr_of_writable rs (cr := cr) hs ha
  refine ⟨writes rfl rfl, fun hne => ?_, writes rfl rfl, writes rfl rfl, writes rfl rfl,
    writes rfl rfl, writes rfl rfl, writes rfl rfl⟩
  rw [writes rfl rfl, writePcr, writeCount_of_ne hne]
  rfl

/-- Settles O12: the draw of the write is the free choice. -/
theorem countWriteMayRaiseRequest : Obligations.CountWriteMayRaiseRequest := by
  unfold Obligations.CountWriteMayRaiseRequest
  intro s rs hs ha heq
  refine ⟨s.draw.1.getLsbD 0, ?_⟩
  rw [exec_mtpcr_of_writable rs hs ha rfl rfl, writePcr, writeCount_of_eq heq, heq]
  rfl

/-- Settles O10: none of the three is changed by a write that is not refused. -/
theorem readOnlyPcrFollowsPolicy : Obligations.ReadOnlyPcrFollowsPolicy := by
  unfold Obligations.ReadOnlyPcrFollowsPolicy
  intro s rs hs cr hcr
  have hro : Pcr.isUnused cr = false ∧ Pcr.isReadOnly cr = true ∧
      writePcr cr (s.readX rs) s = s := by
    simp only [List.mem_cons, List.not_mem_nil, or_false] at hcr
    rcases hcr with rfl | rfl | rfl <;> exact ⟨rfl, rfl, rfl⟩
  obtain ⟨hu, hr, hw⟩ := hro
  rw [exec_mtpcr_of_used rs hs hu, hw]
  refine ⟨fun hp => if_pos ⟨hr, hp⟩, fun hp ha => ?_⟩
  rw [if_neg (by simp [hp]), advance_of_canAdvance s ha]
  rfl

/-- A write of one control register leaves the other writable ones (40_privileged.md R175). -/
theorem writePcr_of_ne (cr : Pcr) (v : Word) (s : State) :
    (cr ≠ .status → (writePcr cr v s).status = s.status) ∧
    (cr ≠ .evec → (writePcr cr v s).evec = s.evec) ∧
    (cr ≠ .count → (writePcr cr v s).count = s.count) ∧
    (cr ≠ .compare → (writePcr cr v s).compare = s.compare) ∧
    (cr ≠ .count → cr ≠ .compare → (writePcr cr v s).timerIp = s.timerIp) ∧
    (cr ≠ .ptbr → (writePcr cr v s).ptbr = s.ptbr) ∧
    (cr ≠ .k0 → (writePcr cr v s).k0 = s.k0) ∧
    (cr ≠ .k1 → (writePcr cr v s).k1 = s.k1) ∧
    (cr ≠ .tohost → (writePcr cr v s).tohost = s.tohost ∧ (writePcr cr v s).output = s.output) := by
  cases cr with
  | count => rw [writePcr, writeCount_frame]; simp
  | _ => simp [writePcr]

/-- Settles O14: the registers `mtpcr` can name by `writePcr_of_ne`, the rest by `writePcr_frame`. -/
theorem mtpcrFrame : Obligations.MtpcrFrame := by
  unfold Obligations.MtpcrFrame
  intro s t rs cr hs hp h
  obtain rfl := eq_writePcr_of_exec_mtpcr rs hs hp h
  obtain ⟨hstatus, hevec, hcount, hcompare, htimer, hptbr, hk0, hk1, htohost⟩ :=
    writePcr_of_ne cr (s.readX rs) s
  have hframe := writePcr_frame cr (s.readX rs) s
  refine ⟨fun i => ?_, fun a => ?_, hstatus, hevec, hcount, hcompare, htimer, hptbr, hk0, hk1,
    htohost, ?_⟩
  · rw [readX_withPc, readX_writePcr]
  · rw [withPc_mem, hframe]
  · rw [hframe]
    exact ⟨rfl, rfl, rfl, rfl, rfl, rfl, rfl, rfl, rfl⟩

/-! ### `eret` -/

/-- Settles O15, field by field of the return from an exception. -/
theorem eretCompletes : Obligations.EretCompletes := by
  unfold Obligations.EretCompletes
  intro s hs
  exact ⟨_, exec_eret_of_supervisor s hs, rfl, rfl, rfl, rfl, fun _ => rfl⟩

/-- Settles O24: the handler is entered in supervisor mode with the mode in `PS` and the `pc` in `epc`. -/
theorem eretResumesTheTrappedInstruction : Obligations.EretResumesTheTrappedInstruction := by
  unfold Obligations.EretResumesTheTrappedInstruction
  intro s c va het
  rw [takeException_of_et _ _ _ _ het]
  exact ⟨_, exec_eret_of_supervisor _ rfl, rfl, rfl, rfl, rfl, rfl⟩

end Sys2Proof.Machine
end

section
/-! SUPPORT. The base instructions class by class (41_base_isa_interface.md R190 to R197): what a
data access answers, how each class completes or traps, and what none of them changes. -/

namespace Sys2Proof.Machine

/-! ### What an aligned access answers -/

section
variable {s : State} {va : Word} {n : Width} (ha : va.toNat % n.bytes = 0)
include ha

theorem memRead_of_granted {pa : Nat} (ht : translateAddr s va .load s.status.s = .ok pa)
    (hp : physPresent s.conf pa n.bytes = true) :
    memRead s va n = .ok (s.mem.readLE pa n.bytes) := by
  rw [memRead_of_aligned _ _ _ ha, ht]
  exact if_pos hp

theorem memWrite_of_granted {pa : Nat} (v : Word)
    (ht : translateAddr s va .store s.status.s = .ok pa)
    (hp : physPresent s.conf pa n.bytes = true) : ∃ m, memWrite s va n v = .ok m := by
  rw [memWrite_of_aligned _ _ _ _ ha, ht]
  simp only [physWrite, hp, if_true]
  exact ⟨_, rfl⟩

/-- A load whose translation traps is its access fault at its own address (20_memory.md R99). -/
theorem memRead_of_translation_trap {c : Cause} {a : Word}
    (ht : translateAddr s va .load s.status.s = .trap c a) :
    memRead s va n = .trap .loadAccessFault va := by
  rw [memRead_of_aligned _ _ _ ha, ht]
  obtain ⟨rfl, rfl⟩ := translateAddr_trap s _ _ _ _ _ ht
  rfl

/-- A store whose translation traps is its access fault at its own address (20_memory.md R99). -/
theorem memWrite_of_translation_trap {c : Cause} {a : Word} (v : Word)
    (ht : translateAddr s va .store s.status.s = .trap c a) :
    memWrite s va n v = .trap .storeAccessFault va := by
  rw [memWrite_of_aligned _ _ _ _ ha, ht]
  obtain ⟨rfl, rfl⟩ := translateAddr_trap s _ _ _ _ _ ht
  rfl

end

/-! ### How a base instruction completes or traps -/

theorem finish_completesAs {e : BaseEffect} {s : State} (h : s.CanGoTo e.pc) :
    ∃ t, finish e s = .next t ∧ s.CompletesAs e t :=
  ⟨_, finish_of_canGoTo e s h, withEffect_completesAs s e⟩

section
variable {isa : BaseIsa} {w : BitVec 32} {n : Width} {s : State} {c : Cause} {a : Word}

theorem execLoad_of_trap (h : memRead s (baseAddress isa w s) n = .trap c a) :
    execLoad isa w n s = .next (takeException c s.pc a s) := by
  rw [execLoad, h]
  rfl

theorem execStore_of_trap
    (h : memWrite s (baseAddress isa w s) n (isa.storeData s.rv64InForce w s.userView) =
      .trap c a) :
    execStore isa w n s = .next (takeException c s.pc a s) := by
  rw [execStore, h]
  rfl

end

theorem takeException_mem (c : Cause) (e va : Word) (s : State) :
    (takeException c e va s).mem = s.mem := by
  rw [takeException_frame]

/-- An exception of codes 8 to 11 that enters the handler reports its code and its address
(60_exceptions.md R240, 10_state.md R47). -/
theorem takeException_reports {c : Cause} (e va : Word) {s : State} (hc : c.recordsAddress = true)
    (het : s.status.et = true) :
    (takeException c e va s).cause = BitVec.ofNat 32 c.code ∧
      (takeException c e va s).badvaddr = va := by
  rw [takeException_of_et _ _ _ _ het, enterHandler_badvaddr, if_pos hc]
  exact ⟨rfl, rfl⟩

/-- Settles O43: a load or a store does what its access answers, and the access answers by
alignment, translation and `PMEM`. -/
theorem loadsAndStoresCompleteOrTrap : Obligations.LoadsAndStoresCompleteOrTrap := by
  unfold Obligations.LoadsAndStoresCompleteOrTrap
  intro isa w n s va v
  refine ⟨?loadCompletes, ?storeCompletes, fun c a ha ht => ?loadFaults,
    fun c a ha ht => ?storeFaults, fun c a h => execLoad_of_trap h,
    fun c a h => ⟨execStore_of_trap h, takeException_mem c s.pc a s⟩⟩
  case loadCompletes =>
    intro pa ha ht hp e hgo
    rw [execBase, execLoad_of_ok (memRead_of_granted ha ht hp)]
    exact finish_completesAs hgo
  case storeCompletes =>
    intro pa ha ht hp e hgo
    obtain ⟨m, hm⟩ := memWrite_of_granted ha v ht hp
    obtain ⟨t, hx, hdone⟩ := finish_completesAs (hgo.congr (memWrite_conf _ _ _ _ _ hm))
    exact ⟨m, t, hm, (execStore_of_ok hm).trans hx, hdone⟩
  case loadFaults =>
    exact ⟨_, execLoad_of_trap (memRead_of_translation_trap ha ht), rfl,
      takeException_reports s.pc va rfl⟩
  case storeFaults =>
    exact ⟨_, execStore_of_trap (memWrite_of_translation_trap ha v ht), rfl,
      takeException_reports s.pc va rfl⟩

/-! ### Control registers -/

/-- Settles O47: an exception, an effect and a store followed by an effect are all a base instruction
can do, and of these an exception alone reaches a control register. -/
theorem baseInstructionsLeaveControlRegisters :
    Obligations.BaseInstructionsLeaveControlRegisters := by
  unfold Obligations.BaseInstructionsLeaveControlRegisters
  refine ⟨fun isa w c s t h => ?_, fun isa w s hgo => finish_completesAs hgo⟩
  rcases execBase_cases isa w c s t h with ⟨e, va, rfl⟩ | ⟨v, rfl⟩ | ⟨va, n, d, m, v, hm, rfl⟩
  · rw [takeException_frame]
    exact ⟨rfl, rfl, rfl, rfl, rfl, rfl, rfl, rfl, rfl, rfl,
      .inr ⟨e, va, (takeException_frame e s.pc va s).symm⟩⟩
  · exact ⟨rfl, rfl, rfl, rfl, rfl, rfl, rfl, rfl, rfl, rfl, .inl ⟨rfl, rfl, rfl, rfl, rfl⟩⟩
  · rw [memWrite_frame s m va n d hm]
    exact ⟨rfl, rfl, rfl, rfl, rfl, rfl, rfl, rfl, rfl, rfl, .inl ⟨rfl, rfl, rfl, rfl, rfl⟩⟩

/-! ### System calls, breakpoints and floating point -/

/-- With `ET = 1` an exception of the instruction at `pc` enters the handler, and `eret` there goes back
to the instruction (60_exceptions.md R240, R245). -/
theorem raise_enters_handler (c : Cause) (va : Word) {s : State} (het : s.status.et = true) :
    ∃ t, raise c va s = .next t ∧ t.cause = BitVec.ofNat 32 c.code ∧ t.epc = s.pc ∧
      t.status.ps = s.status.s ∧ t.status.s = true ∧ t.status.et = false ∧ t.pc = s.evec ∧
      t.x = s.x ∧ ∃ r, exec .eret t = .next r ∧ r.pc = s.pc := by
  rw [raise, takeException_of_et _ _ _ _ het]
  exact ⟨_, rfl, rfl, rfl, rfl, rfl, rfl, rfl, rfl, _, exec_eret_of_supervisor _ rfl, rfl⟩

/-- With `ET = 0` an exception is error mode, and the x registers keep their values
(60_exceptions.md R243). -/
theorem raise_enters_errorMode (c : Cause) (va : Word) {s : State} (het : s.status.et = false) :
    ∃ t, raise c va s = .next t ∧ t.errmode = true ∧ t.x = s.x := by
  rw [raise, takeException_of_not_et _ _ _ _ het]
  exact ⟨_, rfl, rfl, rfl⟩

/-- Settles O44: a system call is the exception of its code. -/
theorem systemCallTraps : Obligations.SystemCallTraps := by
  unfold Obligations.SystemCallTraps
  exact fun _ _ _ => ⟨raise_enters_handler .systemCall 0, raise_enters_errorMode .systemCall 0⟩

/-- Settles O45: a breakpoint is the exception of its code. -/
theorem breakpointTraps : Obligations.BreakpointTraps := by
  unfold Obligations.BreakpointTraps
  exact fun _ _ _ => ⟨raise_enters_handler .breakpoint 0, raise_enters_errorMode .breakpoint 0⟩

/-- The class a floating-point instruction runs as with `EF = 1` (41_base_isa_interface.md R192). -/
def enabledClass : Option (DataKind × Width) → BaseClass
  | none => .other
  | some (.load, n) => .load n
  | some (.store, n) => .store n

section
variable (isa : BaseIsa) (w : BitVec 32) (access : Option (DataKind × Width)) {s : State}

theorem execBase_floatingPoint_of_disabled (h : s.status.ef = false) :
    execBase isa w (.floatingPoint access) s = .next (takeException .fpDisabled s.pc 0 s) := by
  simp [execBase, execFloatingPoint, h, raise]

theorem execBase_floatingPoint_of_enabled (h : s.status.ef = true) :
    execBase isa w (.floatingPoint access) s = execBase isa w (enabledClass access) s := by
  rcases access with _ | ⟨_ | _, n⟩ <;> exact if_pos h

end

/-- Settles O46: with `EF = 0` exception 4, and with `EF = 1` the class of its access. -/
theorem floatingPointDisabled : Obligations.FloatingPointDisabled := by
  unfold Obligations.FloatingPointDisabled
  intro isa w access s
  have enabled := execBase_floatingPoint_of_enabled isa w access (s := s)
  refine ⟨execBase_floatingPoint_of_disabled isa w access, fun hef => ?_, fun hef n => ?_,
    fun hef n => ?_⟩ <;> rintro rfl
  · rw [enabled hef]
    exact ⟨rfl, finish_completesAs⟩
  · exact enabled hef
  · exact enabled hef

end Sys2Proof.Machine
end

section
/-! SUPPORT. Exceptions and interrupts (60_exceptions.md): what taking an exception reports, which interrupt
is considered, and the moves of the clock, the host and the external lines. -/

namespace Sys2Proof.Machine

/-! ### Taking an exception -/

/-- The code fits `cause` (60_exceptions.md R220). -/
theorem takeException_cause_toNat (c : Cause) (e va : Word) {s : State} (het : s.status.et = true) :
    (takeException c e va s).cause.toNat = c.code := by
  have hlt : c.code < 2 ^ 32 := c.code_range.1.trans (by decide)
  rw [takeException_of_et c e va s het, enterHandler_cause, BitVec.toNat_ofNat, Nat.mod_eq_of_lt hlt]

/-- Settles O20: with exceptions enabled an exception is entry to the handler, whose fields these are. -/
theorem exceptionEntry : Obligations.ExceptionEntry := by
  unfold Obligations.ExceptionEntry
  intro s c e va het
  rw [takeException_of_et c e va s het]
  refine ⟨rfl, rfl, fun hcode => ?_, rfl, rfl, rfl, rfl, rfl, rfl, fun _ => rfl⟩
  rw [enterHandler_badvaddr, if_pos (c.recordsAddress_iff.mpr hcode)]

/-- Settles O21. -/
theorem everyExceptionGoesToSupervisor : Obligations.EveryExceptionGoesToSupervisor := by
  unfold Obligations.EveryExceptionGoesToSupervisor
  intro s c e va het
  rw [takeException_of_et c e va s het]
  exact ⟨rfl, rfl⟩

/-- Settles O22: `cause` holds the code, and no code is an unused one. -/
theorem unusedCodesNeverReported : Obligations.UnusedCodesNeverReported := by
  unfold Obligations.UnusedCodesNeverReported
  intro s c e va het
  obtain ⟨hlt, h5, hgap⟩ := c.code_range
  exact ⟨takeException_cause_toNat c e va het, h5, hgap, by omega, by omega⟩

/-! ### Error mode -/

theorem cpuMove_of_errmode (isa : Isa) (b : Bool) {s : State} (h : s.errmode = true) :
    cpuMove isa b s = .fault .errorMode :=
  if_pos h

/-- No agent but reset takes the machine out of error mode (10_state.md R59). -/
theorem applyEvent_errmode {isa : Isa} {e : Event} {s t : State} (he : s.errmode = true)
    (h : applyEvent isa e s = .next t) : t.errmode = true ∨ ∃ u, e = .reset u := by
  cases e with
  | tick => cases h; exact .inl he
  | hostWrite v => cases h; exact .inl he
  | line i b => cases h; exact .inl he
  | run => rw [applyEvent, cpuMove_of_errmode isa true he] at h; cases h
  | defer => rw [applyEvent, cpuMove_of_errmode isa false he] at h; cases h
  | reset u => exact .inr ⟨u, rfl⟩

/-- Settles O23: entry by `enterErrorMode`, the moves in error mode agent by agent. -/
theorem errorModeIsTerminal : Obligations.ErrorModeIsTerminal := by
  unfold Obligations.ErrorModeIsTerminal
  refine ⟨fun s c e va het => ?_, fun isa b s => cpuMove_of_errmode isa b, fun isa s _ => ?_,
    fun isa e s t => applyEvent_errmode, fun isa s u => ⟨_, rfl, rfl, rfl⟩⟩
  · rw [takeException_of_not_et c e va s het]
    exact ⟨rfl, rfl⟩
  · exact ⟨⟨_, rfl, rfl, rfl, rfl⟩, fun _ => rfl, fun _ _ => ⟨_, rfl, rfl⟩⟩

/-! ### Interrupts -/

theorem leastQualifying_eq_some_iff (s : State) (i : Fin 8) :
    s.leastQualifying = some i ↔ s.qualifies i = true ∧ ∀ j, j < i → s.qualifies j = false := by
  rw [State.leastQualifying, ← Fin.find?_eq_find?_finRange, Fin.find?_eq_some_iff]

theorem leastQualifying_eq_none_iff (s : State) :
    s.leastQualifying = none ↔ ∀ j, s.qualifies j = false := by
  rw [State.leastQualifying, ← Fin.find?_eq_find?_finRange, Fin.find?_eq_none_iff]

/-- An interrupt qualifies only with exceptions enabled (60_exceptions.md R231). -/
theorem et_of_leastQualifying {s : State} {i : Fin 8} (h : s.leastQualifying = some i) :
    s.status.et = true := by
  obtain ⟨hq, -⟩ := (leastQualifying_eq_some_iff s i).mp h
  simp only [State.qualifies, Bool.and_eq_true] at hq
  obtain ⟨⟨het, -⟩, -⟩ := hq
  exact het

/-- The request `ip[i]` is an external line's below 7, and the timer's at 7 (10_state.md R58). -/
theorem getLsbD_ip (s : State) (i : Fin 8) :
    s.ip.getLsbD i = if i.val < 7 then s.lines.getLsbD i else s.timerIp := by
  rw [State.ip, BitVec.getLsbD_append]
  split
  · rfl
  · have hi : i.val - 7 = 0 := by omega
    simp [hi]

/-- Settles O25. -/
theorem interruptPriority : Obligations.InterruptPriority := by
  unfold Obligations.InterruptPriority
  intro s i
  refine ⟨leastQualifying_eq_some_iff s i, ?_, leastQualifying_eq_none_iff s⟩
  rw [State.qualifies, getLsbD_ip]

/-- An interrupt that qualifies is taken by the move that takes interrupts (60_exceptions.md R233). -/
theorem cpuMove_of_some (isa : Isa) {s : State} {i : Fin 8} (he : s.errmode = false)
    (hm : s.mixedWidth = false) (hq : s.leastQualifying = some i) :
    cpuMove isa true s = .next (takeException (.interrupt i) s.pc 0 s) := by
  simp [cpuMove, he, hm, hq, raise]

/-- Settles O26: an interrupt qualifies only with exceptions enabled, so that taking it is entry to the
handler. -/
theorem interruptTakenBetweenInstructions : Obligations.InterruptTakenBetweenInstructions := by
  unfold Obligations.InterruptTakenBetweenInstructions
  intro isa s he hm
  refine ⟨fun i hq => ⟨_, cpuMove_of_some isa he hm hq, ?_⟩, cpuMove_of_none isa s true he hm,
    cpuMove_defer isa s he hm⟩
  have het := et_of_leastQualifying hq
  have hcause := takeException_cause_toNat (.interrupt i) s.pc 0 het
  rw [takeException_of_et _ _ _ _ het] at hcause ⊢
  exact ⟨rfl, hcause, rfl, rfl, rfl, rfl, rfl, rfl, rfl⟩

/-! ### The clock, the host and the external lines -/

/-- A line event sets the line it names, if that is connected; the other lines keep their levels where
unconnected ones are low (60_exceptions.md R230). -/
theorem getLsbD_setLine (i j : Fin 7) (b : Bool) {s : State}
    (h : s.lines &&& s.conf.extIrq = s.lines) :
    (setLine i b s).lines.getLsbD j =
      if j = i then (b && s.conf.extIrq.getLsbD i) else s.lines.getLsbD j := by
  have hmask : (1#7 <<< i.val).getLsbD j = decide (j = i) := by
    rw [← BitVec.twoPow, BitVec.getLsbD_twoPow]
    simp [Fin.ext_iff, eq_comm]
  have hj : (s.lines.getLsbD j && s.conf.extIrq.getLsbD j) = s.lines.getLsbD j := by
    rw [← BitVec.getLsbD_and, h]
  have hset : (if b then 1#7 <<< i.val else 0#7).getLsbD j = (b && decide (j = i)) := by
    cases b
    · simp
    · simpa using hmask
  simp only [setLine, BitVec.getLsbD_and, BitVec.getLsbD_or, BitVec.getLsbD_not, hmask, hset]
  by_cases hji : j = i
  · simp [hji]
  · simp only [hji, decide_false, if_false]
    simpa using hj

/-- Settles O27, agent by agent. -/
theorem environmentMoves : Obligations.EnvironmentMoves := by
  unfold Obligations.EnvironmentMoves
  exact fun isa s => ⟨rfl, fun _ => rfl, fun i b h => ⟨_, rfl, rfl, fun j => getLsbD_setLine i j b h⟩⟩

/-! ### The step runs what it decodes -/

/-- Settles O50: each clause is the equation of the processor move it makes. -/
theorem stepRunsDecodedInstruction : Obligations.StepRunsDecodedInstruction := by
  unfold Obligations.StepRunsDecodedInstruction
  intro s w i rest he hm hf hd
  have runs {t : State} (ht : fetch t = fetch s) : execAtPc Isa.default t = exec i t :=
    execAtPc_of_privileged Isa.default t w i (ht.trans hf) hd
  have taken := runs (fetch_withAgenda s rest)
  refine ⟨fun ha => ?_, fun ha hq => ?_, fun ha hq => ?_⟩ <;> rw [step, stepWith, ha]
  · rw [← taken]
    exact cpuMove_defer _ _ he hm
  · rw [← taken]
    exact cpuMove_of_none _ _ true he hm hq
  · rw [← runs (fetch_tick s)]
    exact cpuMove_of_none _ (tick s) true he hm hq

end Sys2Proof.Machine
end

section
/-! SUPPORT. What a step leaves of the control registers, by who moved: the clock, the host and the external
lines, or the processor, in user mode and in either mode (60_exceptions.md R250, R251, R262). -/

namespace Sys2Proof.Machine

/-! ### The agents beside the processor -/

/-- From `s` the clock, the host or the external lines have moved, or the head of the agenda was taken: no
more than these fields changed, and no pending timer request was cleared (60_exceptions.md R260, R266). -/
structure EnvironmentMoved (s t : State) : Prop where
  frame : t = { s with count := t.count, fromhost := t.fromhost, timerIp := t.timerIp,
                       lines := t.lines, agenda := t.agenda }
  timerIp : s.timerIp = true → t.timerIp = true

theorem environmentMoved_tick (s : State) : EnvironmentMoved s (tick s) where
  frame := rfl
  timerIp h := by simp [h]

section
variable {s s' : State} (h : EnvironmentMoved s s')
include h

theorem EnvironmentMoved.status_eq : s'.status = s.status := by
  rw [h.frame]

/-- Nothing the environment moves is read by a fetch. -/
theorem EnvironmentMoved.fetch_eq : fetch s' = fetch s := by
  rw [h.frame]
  exact fetch_congr ⟨rfl, rfl, rfl, rfl, rfl, rfl⟩ rfl rfl

/-- Nothing the environment moves is saved or used by entry to the handler. -/
theorem EnvironmentMoved.entersHandler {t : State} (he : EntersHandler s' t) : EntersHandler s t := by
  rw [h.frame] at he
  exact he

end

/-- Everything a move of an agent can do: reset, the environment's part, or a processor move. -/
theorem applyEvent_cases {isa : Isa} {e : Event} {s t : State} (h : applyEvent isa e s = .next t) :
    (∃ u, e = .reset u) ∨ EnvironmentMoved s t ∨ ∃ b, cpuMove isa b s = .next t := by
  cases e with
  | tick => cases h; exact .inr (.inl (environmentMoved_tick s))
  | hostWrite v => cases h; exact .inr (.inl ⟨rfl, id⟩)
  | line i b => cases h; exact .inr (.inl ⟨rfl, id⟩)
  | run => exact .inr (.inr ⟨true, h⟩)
  | defer => exact .inr (.inr ⟨false, h⟩)
  | reset u => exact .inl ⟨u, rfl⟩

/-- Everything a step that goes on can do: reset, the environment's part alone, or that and a processor
move. -/
theorem stepWith_effects {isa : Isa} {s t : State} (h : stepWith isa s = .next t) :
    (∃ u rest, s.agenda = .reset u :: rest) ∨ EnvironmentMoved s t ∨
      ∃ b s', EnvironmentMoved s s' ∧ cpuMove isa b s' = .next t := by
  rcases stepWith_cases isa s with ⟨e, rest, ha, hx⟩ | ⟨-, hx⟩ <;> rw [hx] at h
  · rcases applyEvent_cases h with ⟨u, rfl⟩ | hm | ⟨b, hb⟩
    · exact .inl ⟨u, rest, ha⟩
    · exact .inr (.inl ⟨hm.frame, hm.timerIp⟩)
    · exact .inr (.inr ⟨b, { s with agenda := rest }, ⟨rfl, id⟩, hb⟩)
  · exact .inr (.inr ⟨true, _, environmentMoved_tick s, h⟩)

/-! ### The processor -/

/-- From `s` a base instruction has completed: no control register has changed
(41_base_isa_interface.md R190). -/
structure KeepsControl (s t : State) : Prop where
  frame : t = { s with x := t.x, pc := t.pc, fp := t.fp, mem := t.mem,
                       storedBytes := t.storedBytes, storedUnderVm := t.storedUnderVm }

/-- Everything a processor move that goes on does to the control registers: what an exception does, what
one of the three instructions does, or nothing. -/
theorem cpuMove_control {isa : Isa} {b : Bool} {s t : State} (h : cpuMove isa b s = .next t) :
    (∃ e va, t = takeException e s.pc va s) ∨
    (∃ w i, fetch s = .ok w ∧ isa.privileged w = some i ∧ exec i s = .next t) ∨
    KeepsControl s t := by
  rcases cpuMove_effects isa b s t h with hx | hx | ⟨v, rfl⟩ | ⟨va, n, d, m, v, hm, rfl⟩
  · exact .inl hx
  · exact .inr (.inl hx)
  · exact .inr (.inr ⟨rfl⟩)
  · refine .inr (.inr ⟨?_⟩)
    rw [memWrite_frame s m va n d hm]
    rfl

/-- The same in user mode, where the three instructions raise an exception (40_privileged.md R170). -/
theorem cpuMove_control_of_user {isa : Isa} {b : Bool} {s t : State} (hs : s.status.s = false)
    (h : cpuMove isa b s = .next t) :
    (∃ e va, t = takeException e s.pc va s) ∨ KeepsControl s t := by
  rcases cpuMove_control h with hx | ⟨w, i, -, -, hx⟩ | hx
  · exact .inl hx
  · rw [exec_of_user i hs] at hx
    exact .inl ⟨_, _, (Host.Outcome.next.inj hx).symm⟩
  · exact .inr hx

/-! ### User mode -/

/-- Settles O59: an exception writes none of the registers named first, and a base instruction no control
register. -/
theorem userModeCannotWriteControlRegisters : Obligations.UserModeCannotWriteControlRegisters := by
  unfold Obligations.UserModeCannotWriteControlRegisters
  intro isa b s t hs h
  have herr := (cpuMove_cases isa b s t h).1
  rcases cpuMove_control_of_user hs h with ⟨e, va, rfl⟩ | hk
  · rw [takeException_frame]
    exact ⟨rfl, rfl, rfl, rfl, rfl, rfl, rfl, rfl, rfl, rfl,
      .inr ⟨e, va, (takeException_frame e s.pc va s).symm⟩⟩
  · rw [hk.frame]
    exact ⟨rfl, rfl, rfl, rfl, rfl, rfl, rfl, rfl, rfl, rfl, .inl ⟨rfl, rfl, rfl, rfl, herr⟩⟩

/-- A processor move from user to supervisor mode that does not end in error mode is entry to the handler
(60_exceptions.md R251). -/
theorem cpuMove_enters_supervisor {isa : Isa} {b : Bool} {s t : State} (hs : s.status.s = false)
    (h : cpuMove isa b s = .next t) (hts : t.status.s = true) (hte : t.errmode = false) :
    EntersHandler s t ∧ t.cause.toNat ≤ 23 := by
  rcases cpuMove_control_of_user hs h with ⟨e, va, rfl⟩ | hk
  · have henter := entersHandler_takeException e va s hte
    have hcause := takeException_cause_toNat e s.pc va henter.1
    have hcode := e.code_range.1
    exact ⟨henter, by omega⟩
  · rw [hk.frame] at hts
    exact absurd (hs.symm.trans hts) Bool.false_ne_true

/-- Settles O58: the environment keeps the mode, so that the step is reset or entry to the handler. -/
theorem supervisorEnteredOnlyByException : Obligations.SupervisorEnteredOnlyByException := by
  unfold Obligations.SupervisorEnteredOnlyByException
  intro isa s t hs h hts hte
  rcases stepWith_effects h with hr | hm | ⟨b, s', hm, hb⟩
  · exact .inl hr
  · rw [hm.status_eq, hs] at hts
    cases hts
  · rw [← hm.status_eq] at hs
    obtain ⟨henter, hcause⟩ := cpuMove_enters_supervisor hs hb hts hte
    obtain ⟨het, hpc, hepc, htet, -, hps⟩ := hm.entersHandler henter
    exact .inr ⟨het, hpc, hepc, htet, hps.trans (hm.status_eq ▸ hs), hcause⟩

/-! ### The timer request -/

theorem takeException_timerIp (c : Cause) (e va : Word) (s : State) :
    (takeException c e va s).timerIp = s.timerIp := by
  rw [takeException_frame]

/-- No write of a control register but `compare` clears a pending request (60_exceptions.md R262); one of
`count` may raise it. -/
theorem writePcr_timerIp_of_ne_compare {cr : Pcr} (v : Word) {s : State} (hcr : cr ≠ .compare)
    (h : s.timerIp = true) : (writePcr cr v s).timerIp = true := by
  by_cases hc : cr = .count
  · subst hc
    by_cases hv : low32 v = s.compare
    · simp [writePcr, writeCount_of_eq hv, h]
    · simp [writePcr, writeCount_of_ne hv, h]
  · obtain ⟨-, -, -, -, htimer, -⟩ := writePcr_of_ne cr v s
    rw [htimer hc hcr, h]

/-- Each of the three instructions keeps a pending request, but `mtpcr` to `compare` in supervisor mode. -/
theorem exec_keeps_timerIp {i : Instr} {s t : State} (hx : exec i s = .next t)
    (hs : s.timerIp = true) :
    t.timerIp = true ∨ ∃ rs, i = .mtpcr rs .compare ∧ s.status.s = true := by
  have raised (c : Cause) : (takeException c s.pc 0 s).timerIp = true :=
    (takeException_timerIp ..).trans hs
  cases i with
  | mfpcr rd cr =>
    rcases execMfpcr_cases rd cr s with ⟨c, h, -⟩ | ⟨r, h⟩ | ⟨-, h⟩ <;>
      rw [exec_mfpcr, h] at hx <;> cases hx
    · exact .inl (raised c)
    · rw [mfpcr_frame]
      exact .inl hs
  | mtpcr rs cr =>
    rcases execMtpcr_cases rs cr s with ⟨c, h, -⟩ | ⟨r, h⟩ | ⟨hsup, h⟩ <;>
      rw [exec_mtpcr, h] at hx <;> cases hx
    · exact .inl (raised c)
    · by_cases hcr : cr = .compare
      · exact .inr ⟨rs, by rw [hcr], hsup⟩
      · exact .inl (writePcr_timerIp_of_ne_compare _ hcr hs)
  | eret =>
    rcases execEret_cases s with ⟨-, h⟩ | ⟨-, h⟩ <;> rw [exec_eret, h] at hx <;> cases hx
    · exact .inl (raised _)
    · exact .inl hs

/-- A processor move keeps a pending request, unless it is `mtpcr` to `compare` in supervisor mode. -/
theorem cpuMove_keeps_timerIp {isa : Isa} {b : Bool} {s t : State} (h : cpuMove isa b s = .next t)
    (hs : s.timerIp = true) :
    t.timerIp = true ∨
      ∃ w rs, fetch s = .ok w ∧ isa.privileged w = some (.mtpcr rs .compare) ∧
        s.status.s = true := by
  rcases cpuMove_control h with ⟨e, va, rfl⟩ | ⟨w, i, hf, hi, hx⟩ | hk
  · exact .inl ((takeException_timerIp ..).trans hs)
  · refine (exec_keeps_timerIp hx hs).imp_right ?_
    rintro ⟨rs, rfl, hsup⟩
    exact ⟨w, rs, hf, hi, hsup⟩
  · rw [hk.frame]
    exact .inl hs

/-- Settles O28: the environment clears no request, and a processor move only by that write. -/
theorem onlyCompareWriteClearsTheRequest : Obligations.OnlyCompareWriteClearsTheRequest := by
  unfold Obligations.OnlyCompareWriteClearsTheRequest
  intro isa s t hs h ht
  have cleared : ¬ t.timerIp = true := by simp [ht]
  rcases stepWith_effects h with hr | hm | ⟨b, s', hm, hb⟩
  · exact .inl hr
  · exact absurd (hm.timerIp hs) cleared
  · have hwrite := (cpuMove_keeps_timerIp hb (hm.timerIp hs)).resolve_left cleared
    rw [hm.fetch_eq, hm.status_eq] at hwrite
    exact .inr hwrite

end Sys2Proof.Machine
end

section
/-! SUPPORT. Six control registers that nothing in user mode reads (60_exceptions.md R250): every operation a
user-mode processor move is made of commutes with replacing their values. -/

namespace Sys2Proof.Machine

/-! ### Replacing the hidden registers -/

/-- Values for the control registers user mode learns nothing of. -/
structure Hidden where
  k0 : Word
  k1 : Word
  tohost : Word
  fromhost : Word
  count : BitVec 32
  compare : BitVec 32

/-- The state with other values in the hidden registers. -/
def State.withHidden (h : Hidden) (s : State) : State :=
  { s with k0 := h.k0, k1 := h.k1, tohost := h.tohost, fromhost := h.fromhost, count := h.count,
           compare := h.compare }

/-- An outcome with the state it goes on in replaced by its image. -/
def mapNext (f : State → State) : Result → Result
  | .next t => .next (f t)
  | .fault r => .fault r
  | .refused r => .refused r

@[simp] theorem mapNext_next (f : State → State) (t : State) : mapNext f (.next t) = .next (f t) := rfl
@[simp] theorem mapNext_fault (f : State → State) (r : Fault) : mapNext f (.fault r) = .fault r := rfl
@[simp] theorem mapNext_refused (f : State → State) (r : Refusal) :
    mapNext f (.refused r) = .refused r := rfl

/-- An access with the value it answers replaced by its image. -/
def Access.map {α β : Type} (f : α → β) : Access α → Access β
  | .ok a => .ok (f a)
  | .trap c va => .trap c va
  | .refused r => .refused r

/-- A load answers by its translation and the memory. -/
theorem memRead_congr {s t : State} (h : SameTables s t) (va : Word) (w : Width) :
    memRead t va w = memRead s va w := by
  simp [memRead, translateAddr_congr h, physRead_congr h, h.status]

section
variable (h : Hidden) (s : State)

@[simp] theorem withHidden_conf : (s.withHidden h).conf = s.conf := rfl
@[simp] theorem withHidden_status : (s.withHidden h).status = s.status := rfl
@[simp] theorem withHidden_errmode : (s.withHidden h).errmode = s.errmode := rfl
@[simp] theorem rv64InForce_withHidden : (s.withHidden h).rv64InForce = s.rv64InForce := rfl
@[simp] theorem mixedWidth_withHidden : (s.withHidden h).mixedWidth = s.mixedWidth := rfl
@[simp] theorem leastQualifying_withHidden :
    (s.withHidden h).leastQualifying = s.leastQualifying := rfl
@[simp] theorem userView_withHidden : (s.withHidden h).userView = s.userView := rfl
@[simp] theorem baseAddress_withHidden (isa : BaseIsa) (w : BitVec 32) :
    baseAddress isa w (s.withHidden h) = baseAddress isa w s := rfl
@[simp] theorem baseEffect_withHidden (isa : BaseIsa) (w : BitVec 32) (loaded : Word) :
    baseEffect isa w (s.withHidden h) loaded = baseEffect isa w s loaded := rfl

/-- Translation reads no hidden register. -/
theorem sameTables_withHidden : SameTables s (s.withHidden h) :=
  ⟨rfl, rfl, rfl, rfl, rfl, rfl⟩

@[simp] theorem fetch_withHidden : fetch (s.withHidden h) = fetch s :=
  fetch_congr (sameTables_withHidden h s) rfl rfl

@[simp] theorem memRead_withHidden (va : Word) (w : Width) :
    memRead (s.withHidden h) va w = memRead s va w :=
  memRead_congr (sameTables_withHidden h s) va w

theorem physWrite_withHidden (pa n : Nat) (v : Word) :
    physWrite (s.withHidden h) pa n v = (physWrite s pa n v).map (State.withHidden h) := by
  unfold physWrite
  cases hp : physPresent s.conf pa n with
  | false => simp [hp]
  | true => simp [hp]; rfl

/-- A store answers the same, and leaves the hidden registers it found. -/
theorem memWrite_withHidden (va : Word) (w : Width) (v : Word) :
    memWrite (s.withHidden h) va w v = (memWrite s va w v).map (State.withHidden h) := by
  by_cases ha : va.toNat % w.bytes = 0
  · rw [memWrite_of_aligned _ _ _ _ ha, memWrite_of_aligned _ _ _ _ ha, withHidden_status,
      translateAddr_congr (sameTables_withHidden h s)]
    cases translateAddr s va .store s.status.s with
    | trap c a => rfl
    | refused r => rfl
    | ok pa =>
      simp only [physWrite_withHidden]
      cases physWrite s pa w.bytes v <;> rfl
  · rw [memWrite_of_misaligned _ ha, memWrite_of_misaligned _ ha]
    rfl

theorem takeException_withHidden (c : Cause) (e va : Word) :
    takeException c e va (s.withHidden h) = (takeException c e va s).withHidden h := by
  rcases takeException_cases c e va s with ⟨het, hx⟩ | ⟨het, hx⟩ <;> rw [hx]
  · exact takeException_of_et c e va _ het
  · exact takeException_of_not_et c e va _ het

theorem raise_withHidden (c : Cause) (va : Word) :
    raise c va (s.withHidden h) = mapNext (State.withHidden h) (raise c va s) :=
  congrArg Host.Outcome.next (takeException_withHidden h s c s.pc va)

theorem complete_withHidden (target : Int) :
    complete target (s.withHidden h) = mapNext (State.withHidden h) (complete target s) := by
  unfold complete
  split
  · next hp => rw [if_pos (by exact hp)]; rfl
  · next hp => rw [if_neg (by exact hp)]; rfl

theorem finish_withHidden (e : BaseEffect) :
    finish e (s.withHidden h) = mapNext (State.withHidden h) (finish e s) :=
  complete_withHidden h (s.withEffect e) e.pc

/-! ### The base instructions -/

variable (isa : BaseIsa) (w : BitVec 32)

theorem execLoad_withHidden (n : Width) :
    execLoad isa w n (s.withHidden h) = mapNext (State.withHidden h) (execLoad isa w n s) := by
  simp only [execLoad, baseAddress_withHidden, memRead_withHidden, baseEffect_withHidden]
  cases memRead s (baseAddress isa w s) n with
  | ok v => exact finish_withHidden h s _
  | trap c va => exact raise_withHidden h s c va
  | refused r => rfl

theorem execStore_withHidden (n : Width) :
    execStore isa w n (s.withHidden h) = mapNext (State.withHidden h) (execStore isa w n s) := by
  simp only [execStore, baseAddress_withHidden, rv64InForce_withHidden, userView_withHidden,
    memWrite_withHidden, baseEffect_withHidden]
  cases memWrite s (baseAddress isa w s) n (isa.storeData s.rv64InForce w s.userView) with
  | ok t => exact finish_withHidden h t _
  | trap c va => exact raise_withHidden h s c va
  | refused r => rfl

theorem execOther_withHidden :
    execOther isa w (s.withHidden h) = mapNext (State.withHidden h) (execOther isa w s) :=
  finish_withHidden h s _

theorem execFloatingPoint_withHidden (access : Option (DataKind × Width)) :
    execFloatingPoint isa w access (s.withHidden h) =
      mapNext (State.withHidden h) (execFloatingPoint isa w access s) := by
  cases hef : s.status.ef with
  | false =>
    simp only [execFloatingPoint, withHidden_status, hef]
    exact raise_withHidden h s .fpDisabled 0
  | true =>
    simp only [execFloatingPoint, withHidden_status, hef]
    match access with
    | none => exact execOther_withHidden h s isa w
    | some (.load, n) => exact execLoad_withHidden h s isa w n
    | some (.store, n) => exact execStore_withHidden h s isa w n

theorem execBase_withHidden (c : BaseClass) :
    execBase isa w c (s.withHidden h) = mapNext (State.withHidden h) (execBase isa w c s) := by
  cases c with
  | floatingPoint access => exact execFloatingPoint_withHidden h s isa w access
  | systemCall => exact raise_withHidden h s .systemCall 0
  | breakpoint => exact raise_withHidden h s .breakpoint 0
  | load n => exact execLoad_withHidden h s isa w n
  | store n => exact execStore_withHidden h s isa w n
  | other => exact execOther_withHidden h s isa w

end

/-! ### The processor in user mode -/

section
variable (h : Hidden) {s : State} (hs : s.status.s = false) (isa : Isa)
include hs

theorem exec_withHidden_of_user (i : Instr) :
    exec i (s.withHidden h) = mapNext (State.withHidden h) (exec i s) := by
  rw [exec_of_user i hs, exec_of_user i (s := s.withHidden h) hs]
  exact raise_withHidden h s .privilegedInstr 0

theorem execAtPc_withHidden_of_user :
    execAtPc isa (s.withHidden h) = mapNext (State.withHidden h) (execAtPc isa s) := by
  simp only [execAtPc, fetch_withHidden, rv64InForce_withHidden]
  cases fetch s with
  | trap c va => exact raise_withHidden h s c va
  | refused r => rfl
  | ok w =>
    dsimp only
    cases isa.decode s.rv64InForce w with
    | illegal => exact raise_withHidden h s .illegalInstr 0
    | privileged i => exact exec_withHidden_of_user h hs i
    | base c => exact execBase_withHidden h s isa.base w c

theorem cpuMove_withHidden_of_user (b : Bool) :
    cpuMove isa b (s.withHidden h) = mapNext (State.withHidden h) (cpuMove isa b s) := by
  cases he : s.errmode with
  | true => simp [cpuMove, he]
  | false =>
    cases hm : s.mixedWidth with
    | true => simp [cpuMove, he, hm]
    | false =>
      simp only [cpuMove, withHidden_errmode, mixedWidth_withHidden, leastQualifying_withHidden, he, hm]
      cases (if b = true then s.leastQualifying else none) with
      | some i => exact raise_withHidden h s (.interrupt i) 0
      | none => exact execAtPc_withHidden_of_user h hs isa

end

/-- Settles O60: the processor move commutes with replacing the six registers. -/
theorem controlRegistersInvisibleToUser : Obligations.ControlRegistersInvisibleToUser := by
  unfold Obligations.ControlRegistersInvisibleToUser
  intro isa b s k0 k1 tohost fromhost count compare hs
  exact cpuMove_withHidden_of_user ⟨k0, k1, tohost, fromhost, count, compare⟩ hs isa b

end Sys2Proof.Machine
end
